-- ==== Sys2Proof/Word.lean ====
section
/-! DEFINITION. The two word types of the engine (R5, R9): a 32-bit register value and a byte. -/

namespace Sys2Proof

/-- A register value, an address held in a register, or a command word: XLEN = 32 bits (R5). -/
abbrev Word := BitVec 32

/-- A byte of BUF, of a chunk type, or the immediate of CRCB (R9). -/
abbrev Byte := BitVec 8

end Sys2Proof
end

