-- ==== Sys2Proof/Syntax.lean ====
section
/-! DEFINITION. The nine commands of the engine (R58), one constructor per row of spec/opcode_table.json. -/

namespace Sys2Proof

/-- A command. Every operand but the immediate of CRCB is implicit in fixed registers (R61). -/
inductive Instr where
  /-- NOP, opcode 0x00, format Z (R71). -/
  | nop
  /-- TCHK, opcode 0x01, format Z (R72). -/
  | tchk
  /-- CRCINIT, opcode 0x10, format Z (R85). -/
  | crcinit
  /-- CRCB #imm8, opcode 0x11, format I (R86, R60). -/
  | crcb (imm8 : Byte)
  /-- CRCUPD, opcode 0x12, format Z (R87). -/
  | crcupd
  /-- CRCFIN, opcode 0x13, format Z (R88). -/
  | crcfin
  /-- CRC32, opcode 0x14, format Z (R89). -/
  | crc32
  /-- SER, opcode 0x20, format Z (R95). -/
  | ser
  /-- DES, opcode 0x21, format Z (R100). -/
  | des
deriving DecidableEq, Repr

end Sys2Proof
end

