-- ==== Sys2Proof/WellFormed.lean ====
section
/-! DEFINITION. Which commands and which command words are well formed (R58, R60, R62). -/

namespace Sys2Proof

/-- A command is well formed when its immediate is an unsigned byte 0x00 to 0xFF (R60). The field is typed as a byte, so
every command is; what can be ill formed is a command WORD, below. -/
def Instr.wf : Instr → Bool
  | .nop => true
  | .tchk => true
  | .crcinit => true
  | .crcb imm8 => decide (imm8.toNat ≤ 0xFF)
  | .crcupd => true
  | .crcfin => true
  | .crc32 => true
  | .ser => true
  | .des => true

/-- The opcodes of R58. -/
def knownOpcodes : List Byte := [0x00, 0x01, 0x10, 0x11, 0x12, 0x13, 0x14, 0x20, 0x21]

/-- R62's first condition: the opcode field, bits 7:0, is one of R58's. -/
def wordOpcodeKnown (w : Word) : Bool := knownOpcodes.contains (w.extractLsb' 0 8)

/-- R62's second condition: bits 31:16 are all 0. -/
def wordZeroField (w : Word) : Bool := w.extractLsb' 16 16 == 0

/-- R62's third condition: bits 15:8 are all 0 unless the opcode is of format I (0x11). -/
def wordImmField (w : Word) : Bool := w.extractLsb' 0 8 == 0x11 || w.extractLsb' 8 8 == 0

/-- A command word that R62 does not call illegal. -/
def wordLegal (w : Word) : Bool := wordOpcodeKnown w && wordZeroField w && wordImmField w

end Sys2Proof
end

