-- ==== Sys2Proof/Decode.lean ====
section
/-! DEFINITION. Decoding a command word (R65), the encoder written from the same fields (R57, R58), the match and mask
columns of R58, and the host's view of the decoder (`decodeTableWord`). -/

namespace Sys2Proof

/-- Why a word is no command, by the line of R65 that says so. The machine answers E_ILLEGAL for each (R62); the names
are the model's (log 11). -/
inductive Illegal where
  /-- Bits 31:16 are not all 0. -/
  | zeroField
  /-- Bits 15:8 are not all 0 and the opcode is not CRCB's. -/
  | immField
  /-- The opcode is none of R58's. -/
  | opcode
deriving DecidableEq, Repr

/-- The opcode field, bits 7:0 (R57). -/
def opcodeField (w : Word) : Byte := w.extractLsb' 0 8

/-- The immediate field, bits 15:8 (R57, R60). -/
def immField (w : Word) : Byte := w.extractLsb' 8 8

/-- The must-be-zero field, bits 31:16 (R57). -/
def zeroField (w : Word) : BitVec 16 := w.extractLsb' 16 16

/-- The format-Z command of an opcode (R58), or none. -/
def decodeOpcodeZ (op : Byte) : Option Instr :=
  if op = 0x00 then some .nop
  else if op = 0x01 then some .tchk
  else if op = 0x10 then some .crcinit
  else if op = 0x12 then some .crcupd
  else if op = 0x13 then some .crcfin
  else if op = 0x14 then some .crc32
  else if op = 0x20 then some .ser
  else if op = 0x21 then some .des
  else none

/-- R65, line by line: total on 32-bit words. -/
def decode (w : Word) : Except Illegal Instr :=
  if zeroField w ≠ 0 then .error .zeroField
  else if opcodeField w = 0x11 then .ok (.crcb (immField w))
  else if immField w ≠ 0 then .error .immField
  else match decodeOpcodeZ (opcodeField w) with
    | some i => .ok i
    | none => .error .opcode

/-- The opcode of a command (R58). -/
def Instr.opcode : Instr → Byte
  | .nop => 0x00
  | .tchk => 0x01
  | .crcinit => 0x10
  | .crcb _ => 0x11
  | .crcupd => 0x12
  | .crcfin => 0x13
  | .crc32 => 0x14
  | .ser => 0x20
  | .des => 0x21

/-- The immediate field of a command: imm8 for format I, 0 for format Z (R57). -/
def Instr.imm : Instr → Byte
  | .crcb imm8 => imm8
  | .nop => 0
  | .tchk => 0
  | .crcinit => 0
  | .crcupd => 0
  | .crcfin => 0
  | .crc32 => 0
  | .ser => 0
  | .des => 0

/-- The command word of a command: zero field, immediate, opcode, most significant first (R57). -/
def encode (i : Instr) : Word := (0 : BitVec 16) ++ i.imm ++ i.opcode

/-- The `match` column of R58. -/
def Instr.matchBits : Instr → Word
  | .nop => 0x00000000
  | .tchk => 0x00000001
  | .crcinit => 0x00000010
  | .crcb _ => 0x00000011
  | .crcupd => 0x00000012
  | .crcfin => 0x00000013
  | .crc32 => 0x00000014
  | .ser => 0x00000020
  | .des => 0x00000021

/-- The `mask` column of R58. -/
def Instr.maskBits : Instr → Word
  | .crcb _ => 0xFFFF00FF
  | .nop => 0xFFFFFFFF
  | .tchk => 0xFFFFFFFF
  | .crcinit => 0xFFFFFFFF
  | .crcupd => 0xFFFFFFFF
  | .crcfin => 0xFFFFFFFF
  | .crc32 => 0xFFFFFFFF
  | .ser => 0xFFFFFFFF
  | .des => 0xFFFFFFFF

/-- The host's view: the low `nbits` bits of `w` as the table numbers them, every bit above them 0. A command is one
32-bit number (R57), so there is no byte order to apply. A number that needs more than 32 bits is no command word. -/
def decodeTableWord (nbits w : Nat) : Option Instr :=
  if w % 2 ^ nbits < 2 ^ 32 then
    match decode (BitVec.ofNat 32 (w % 2 ^ nbits)) with
    | .ok i => some i
    | .error _ => none
  else none

end Sys2Proof
end

