-- ==== Sys2Proof/Machine/Operands.lean ====
section
/-! DEFINITION. The operand forms: the four bytes of a 32-bit value in wire order, and the four wire bytes of a value
(R11, R14, R40, R41). Every other operand is a whole register or the immediate byte (R60, R61). -/

namespace Sys2Proof.Machine

/-- Byte `k` of a 32-bit value in wire order, `v[31-8k : 24-8k]` for k = 0, 1, 2, 3 (R14, R40): byte 0 is the most
significant and the first on the wire. -/
def wireByte (v : Word) (k : Nat) : Byte := v.extractLsb' (24 - 8 * k) 8

/-- `bytes_be32(v)` of R11: the big-endian write. -/
def bytesBe32 (v : Word) : List Byte := [wireByte v 0, wireByte v 1, wireByte v 2, wireByte v 3]

/-- `be32` of R11: the big-endian read of four bytes, lowest address first. -/
def be32 (b0 b1 b2 b3 : Byte) : Word :=
  (b0.setWidth 32 <<< 24) ||| (b1.setWidth 32 <<< 16) ||| (b2.setWidth 32 <<< 8) ||| b3.setWidth 32

end Sys2Proof.Machine
end

