-- ==== Sys2Proof/Machine/Checksum.lean ====
section
/-! DEFINITION. The CRC-32/ISO-HDLC function: one byte, a byte sequence, the whole checksum, and the table form
(R80 to R84). -/

namespace Sys2Proof.Machine

/-- One of the eight inner steps of R80, on one bit. -/
def crcBit (a : Word) : Word := if a.getLsbD 0 then (a >>> 1) ^^^ 0xEDB88320 else a >>> 1

/-- `n` inner steps. -/
def crcBits : Nat → Word → Word
  | 0, a => a
  | n + 1, a => crcBits n (crcBit a)

/-- `crc_step(a, b)` of R80: the byte enters at the low 8 bits, then eight inner steps. -/
def crcStep (a : Word) (b : Byte) : Word := crcBits 8 (a ^^^ b.setWidth 32)

/-- `crc_fold(a, s)` of R81. -/
def crcFold : Word → List Byte → Word
  | a, [] => a
  | a, b :: s => crcFold (crcStep a b) s

/-- The initial value and the final exclusive-or of R82. -/
def crcOnes : Word := 0xFFFFFFFF

/-- `crc32(s)` of R82. -/
def crc32 (s : List Byte) : Word := crcFold crcOnes s ^^^ crcOnes

/-- The table entry `T[i]` of R83. -/
def crcTable (i : Byte) : Word := crcStep 0x00000000 i

/-- The CRC of a chunk (R84): over the four type bytes, byte 0 first, then the payload. -/
def chunkCrc (t : Word) (payload : List Byte) : Word := crc32 (bytesBe32 t ++ payload)

end Sys2Proof.Machine
end

