-- ==== Sys2Proof/Machine/Flags.lean ====
section
/-! DEFINITION. The letter test (R25) and FLAGS, the chunk-type predicates derived from TYPE (R26, R73). -/

namespace Sys2Proof.Machine

/-- `is_letter(b)` of R25: `A` to `Z` or `a` to `z`. -/
def isLetter (b : Byte) : Bool :=
  (decide (0x41 ≤ b.toNat) && decide (b.toNat ≤ 0x5A)) || (decide (0x61 ≤ b.toNat) && decide (b.toNat ≤ 0x7A))

/-- FLAGS.ALPHA, and the test that TCHK, SER and DES make: all four type bytes are letters (R26, R72). -/
def allLetters (t : Word) : Bool :=
  isLetter (wireByte t 0) && isLetter (wireByte t 1) && isLetter (wireByte t 2) && isLetter (wireByte t 3)

/-- Bit 5 (0x20) of type byte `k`, the bit all four naming predicates test (R26). -/
def caseBit (t : Word) (k : Nat) : Bool := (wireByte t k).getLsbD 5

/-- FLAGS.CRITICAL, bit 0 (R26). -/
def flagCritical (t : Word) : Bool := !caseBit t 0

/-- FLAGS.PUBLIC, bit 1 (R26). -/
def flagPublic (t : Word) : Bool := !caseBit t 1

/-- FLAGS.RESERVED_VALID, bit 2 (R26). -/
def flagReservedValid (t : Word) : Bool := !caseBit t 2

/-- FLAGS.SAFE_TO_COPY, bit 3 (R26). -/
def flagSafeToCopy (t : Word) : Bool := caseBit t 3

/-- FLAGS.VALID, bit 5 (R26). -/
def flagValid (t : Word) : Bool := allLetters t && flagReservedValid t

/-- The value that FLAGS reads as when TYPE holds `t` (R26): bits 31:6 are 0. -/
def flagsOf (t : Word) : Word :=
  (0 : BitVec 26) ++ BitVec.ofBool (flagValid t) ++ BitVec.ofBool (allLetters t) ++ BitVec.ofBool (flagSafeToCopy t) ++
    BitVec.ofBool (flagReservedValid t) ++ BitVec.ofBool (flagPublic t) ++ BitVec.ofBool (flagCritical t)

end Sys2Proof.Machine
end

