-- ==== Sys2Proof/Config.lean ====
section
/-! DEFINITION. What an implementation fixes (R5: BUF_SIZE, REG_BASE, BUF_BASE) and the free values (R146: the
contents of BUF at power-up). Every constant here is opaque without a body, so no proof can learn its value. -/

namespace Sys2Proof

/-- The open parameters of the block (R5, D3, U7). DESIGN CHOICE (log 1): State carries them, so that every statement
over all states is a statement over all their values. -/
structure Params where
  /-- BUF_SIZE, the number of bytes of BUF. -/
  bufSize : Nat
  /-- REG_BASE, the bus address of register offset 0x00: any natural number, DESIGN CHOICE (log 16). -/
  regBase : Nat
  /-- BUF_BASE, the bus address of BUF byte 0: any natural number, DESIGN CHOICE (log 16). -/
  bufBase : Nat
deriving DecidableEq, Repr

/-- The number of bytes of the register window, R30 and R47: offsets 0x00 to 0x33. -/
def Params.regWindow : Nat := 0x34

/-- The legal parameters: 1 <= BUF_SIZE <= 2^32 - 1 (R5), and the two windows do not overlap (R47). DESIGN CHOICE (log 16):
bus addresses have no width here, so no window has to end below 2^32. -/
def Params.wf (p : Params) : Bool :=
  decide (1 ≤ p.bufSize) && decide (p.bufSize ≤ 2 ^ 32 - 1) &&
    (decide (p.regBase + Params.regWindow ≤ p.bufBase) || decide (p.bufBase + p.bufSize ≤ p.regBase))

/-- BUF_SIZE - 1 of this machine: any value that R5 allows. -/
opaque Config.bufSizePred : Fin (4294967294 + 1)

/-- The lower of the two window bases of this machine (R47): any bus address, a natural number of no given width, DESIGN
CHOICE (log 16). -/
opaque Config.lowBase : Nat

/-- The room this machine leaves between its two windows (R47): any distance, of no given width either (log 16). -/
opaque Config.windowGap : Nat

/-- Whether this machine's BUF window stands below its register window (R47): either. -/
opaque Config.bufWindowFirst : Bool

/-- BUF_SIZE of this machine. -/
def Config.bufSize : Nat := Config.bufSizePred.val + 1

/-- This machine's parameters. Two windows do not overlap exactly when one of them ends before the other begins, so
every choice that R5 and R47 allow is covered. -/
def Config.params : Params where
  bufSize := Config.bufSize
  regBase := cond Config.bufWindowFirst (Config.lowBase + Config.bufSize + Config.windowGap) Config.lowBase
  bufBase := cond Config.bufWindowFirst Config.lowBase (Config.lowBase + Params.regWindow + Config.windowGap)

/-- FREE VALUE (log 4): what byte `i` of BUF holds after power-up, before the host or SER has written it (R146, U6). -/
opaque Config.powerUpByte : Nat → Byte

end Sys2Proof
end

