-- ==== Sys2Proof/Machine/State.lean ====
section
/-! DEFINITION. The state of the engine as plain data (R13, R31, R33), the host's actions (R109), the reasons a step can
stop, and the state after reset (R34). -/

namespace Sys2Proof.Machine

/-- The thirteen register names of R13. -/
inductive Reg where
  | type | len | src | lim | dst | crc | elen | pay | acc | flags | status | einfo | cmd
deriving DecidableEq, Repr

/-- The width of a host access. Only a word has a meaning on a register (R30) and only a byte on BUF (R45). -/
inductive Width where
  | byte | half | word
deriving DecidableEq, Repr

/-- One host action (R7, R109), or a reset by the platform (R144). A register is named by its byte offset from REG_BASE, a
byte of BUF by its index; the two bus forms give a bus address instead (R47, R66), a natural number of no given width, DESIGN
CHOICE (log 16). -/
inductive HostAction where
  /-- A register write; at offset 0x30 a command (R29). -/
  | regWrite (width : Width) (offset : Nat) (value : Word)
  /-- A register read. -/
  | regRead (width : Width) (offset : Nat)
  /-- A write of one byte of BUF. -/
  | bufWrite (index : Nat) (value : Byte)
  /-- A read of one byte of BUF. -/
  | bufRead (index : Nat)
  /-- A write on the host's bus, at any natural number (log 16); a byte-wide write carries its byte in bits 7:0 of `value`
  (log 7). -/
  | busWrite (width : Width) (addr : Nat) (value : Word)
  /-- A read on the host's bus, at any natural number (log 16). -/
  | busRead (width : Width) (addr : Nat)
  /-- A reset, between two host actions (R144). -/
  | reset
deriving DecidableEq, Repr

/-- What a host action gets back (R109). -/
inductive Reply where
  | nothing
  | word (value : Word)
  | byte (value : Byte)
deriving DecidableEq, Repr

/-- BUF: the bytes that the host or SER has written since power-up, as (index, byte) pairs in rising order of index. An
unlisted byte holds its power-up value, which is no value the model knows (log 4). -/
abbrev Mem := List Host.Cell

/-- The canonical form of BUF: indices strictly rising. The list stores only written bytes and an unlisted index stores
none, so no entry can equal an unlisted one, and equal contents are equal lists (log 4). -/
def Mem.wf : Mem → Bool
  | [] => true
  | [_] => true
  | c :: d :: m => decide (c.1 < d.1) && Mem.wf (d :: m)

/-- The complete state: the eleven stored registers of R13, BUF, and three fields of the model's own (logs 1, 2, 3). -/
structure State where
  /-- TYPE, R14. -/
  type : Word
  /-- LEN, R15. -/
  len : Word
  /-- SRC, R16. -/
  src : Word
  /-- LIM, R17. -/
  lim : Word
  /-- DST, R18. -/
  dst : Word
  /-- CRC, R19. -/
  crc : Word
  /-- ELEN, R20. -/
  elen : Word
  /-- PAY, R21. -/
  pay : Word
  /-- ACC, R22. -/
  acc : Word
  /-- STATUS, R27; its field ERR is bits 3:0. -/
  status : Word
  /-- EINFO, R28. -/
  einfo : Word
  /-- BUF, R31. -/
  mem : Mem
  /-- BUF_SIZE, REG_BASE, BUF_BASE: the model's own field, DESIGN CHOICE (log 1); nothing changes it. -/
  params : Params
  /-- The host's coming actions, the next one first: the model's own field, DESIGN CHOICE (log 2). -/
  actions : List HostAction
  /-- What the last host action got back: the model's own field, DESIGN CHOICE (log 3). -/
  reply : Reply
deriving DecidableEq, Repr

/-- The engine has no fault that stops it: every command ends in success or in an error that the host reads (R8, R12),
so this type has no constructor and no step answers with a fault. -/
inductive Fault where
deriving DecidableEq, Repr

/-- Why a step is refused: a host action to which the spec gives no meaning (R8, 93_implementation_defined.md U1 to U3).
Each is safe: the model stops where the hardware would do something unstated. -/
inductive Refusal where
  /-- A command whose meaning is not modelled, by mnemonic: raised by no arm of exec any more. Safe. -/
  | notModelled (mnemonic : String)
  /-- U1: a register access that is not 32 bits wide; raised by a register or bus access. Safe. -/
  | narrowRegisterAccess
  /-- U1: a register access at an offset that is no multiple of 4; raised by a register or bus access. Safe. -/
  | unalignedRegisterAccess
  /-- U2: a register access at an offset that R13 does not list; raised by a register or bus access. Safe. -/
  | unlistedRegisterOffset
  /-- U3: a BUF access at an index at or above BUF_SIZE; raised by a BUF access. Safe. -/
  | bufIndexOutOfRange
  /-- R45: a bus access to BUF wider than a byte, to which the spec gives no meaning; raised by a bus access. Safe. -/
  | wideBufAccess
  /-- R47: a bus address in neither window; raised by a bus access. Safe. -/
  | unmappedBusAddress
deriving DecidableEq, Repr

/-- The errors of R129 that the engine raises. -/
inductive Err where
  | type | trunc | crc | bounds | overlap | illegal
deriving DecidableEq, Repr

/-- What performing one host action comes to: the action is done, or it hands the engine a command word, or it has no
meaning. -/
inductive Performed where
  | done (s : State)
  | command (w : Word) (s : State)
  | refuse (r : Refusal)
deriving DecidableEq, Repr

/-- The state after reset (R34), on a machine just powered up: no byte of BUF written yet (R146), no host action pending. -/
def State.reset : State where
  type := 0x00000000
  len := 0x00000000
  src := 0x00000000
  lim := 0x00000000
  dst := 0x00000000
  crc := 0x00000000
  elen := 0x00000000
  pay := 0x00000000
  acc := 0xFFFFFFFF
  status := 0x00000000
  einfo := 0x00000000
  mem := []
  params := Config.params
  actions := []
  reply := .nothing

end Sys2Proof.Machine
end

