-- ==== Sys2Proof/Machine/Ops.lean ====
section
/-! DEFINITION. The named operations over BUF and the registers: byte and range access (R11, R44), register names and
offsets (R13, R30), the error outcome and its opposite (R8, R138, R140), the bounds checks that commands share
(R48, R87), reset (R144), and taking the host's next action (R7). -/

namespace Sys2Proof.Machine

/-! ## BUF -/

/-- The byte written at index `a`, or none if nothing has been written there since power-up. -/
def Mem.lookup : Mem → Nat → Option Byte
  | [], _ => none
  | c :: m, a => if c.1 = a then some c.2 else Mem.lookup m a

/-- Write one byte, keeping the list in rising order of index. -/
def Mem.write : Mem → Nat → Byte → Mem
  | [], a, v => [(a, v)]
  | c :: m, a, v =>
    if a < c.1 then (a, v) :: c :: m
    else if a = c.1 then (a, v) :: m
    else c :: Mem.write m a v

/-- Read one byte: what was last written there, or the byte's power-up value, any value at all (R146, log 4). -/
def Mem.read (m : Mem) (a : Nat) : Byte :=
  match m.lookup a with
  | some v => v
  | none => Config.powerUpByte a

/-- `MemRead(a, n)` of R11: the `n` bytes from `a` on, lowest address first. -/
def Mem.readBytes (m : Mem) : Nat → Nat → List Byte
  | _, 0 => []
  | a, n + 1 => m.read a :: Mem.readBytes m (a + 1) n

/-- `MemWrite(a, n, v)` of R11: the bytes of `v` from `a` on, `v[0]` at the lowest address. -/
def Mem.writeBytes : Mem → Nat → List Byte → Mem
  | m, _, [] => m
  | m, a, b :: bs => Mem.writeBytes (m.write a b) (a + 1) bs

/-- `be32(MemRead(a, 4))` of R11 and R40. -/
def Mem.readBe32 (m : Mem) (a : Nat) : Word := be32 (m.read a) (m.read (a + 1)) (m.read (a + 2)) (m.read (a + 3))

/-- Every written byte lies below BUF_SIZE (R31, R48). -/
def Mem.within (m : Mem) (size : Nat) : Bool := m.all fun c => decide (c.1 < size)

/-! ## The outcome of a command -/

/-- The code of an error (R129). -/
def Err.code : Err → Word
  | .type => 1
  | .trunc => 2
  | .crc => 3
  | .bounds => 8
  | .overlap => 9
  | .illegal => 10

/-- Write STATUS and EINFO, and nothing else. -/
def report (code info : Word) (s : State) : State := { s with status := code, einfo := info }

/-- Error entry, `raise e(info)` of R11 and R138: STATUS gets the code, EINFO the context value, nothing else changes. -/
def raise (e : Err) (info : Word) (s : State) : State := report e.code info s

/-- The success outcome (R8): STATUS and EINFO get 0. It is also what clears an error (R140). -/
def succeed (s : State) : State := report 0 0 s

/-- The two bounds checks that CRCUPD, CRC32 and SER share (R87, R89, R95, D12): LIM is at most BUF_SIZE, and the range of
LEN bytes at SRC lies below LIM. The sum is over the naturals (R10). -/
abbrev State.SourceInBounds (s : State) : Prop :=
  s.lim.toNat ≤ s.params.bufSize ∧ s.src.toNat + s.len.toNat ≤ s.lim.toNat

/-- The LEN bytes at SRC: the range of CRCUPD and CRC32, the payload of SER (R87, R89, R95). -/
def State.sourceBytes (s : State) : List Byte := s.mem.readBytes s.src.toNat s.len.toNat

/-! ## Registers -/

/-- The byte offset of a register from REG_BASE (R13). -/
def Reg.offset : Reg → Nat
  | .type => 0x00
  | .len => 0x04
  | .src => 0x08
  | .lim => 0x0C
  | .dst => 0x10
  | .crc => 0x14
  | .elen => 0x18
  | .pay => 0x1C
  | .acc => 0x20
  | .flags => 0x24
  | .status => 0x28
  | .einfo => 0x2C
  | .cmd => 0x30

/-- The register names of R13, in the order of its table. -/
def allRegs : List Reg :=
  [.type, .len, .src, .lim, .dst, .crc, .elen, .pay, .acc, .flags, .status, .einfo, .cmd]

/-- The register at an offset, or none where R13 lists none. -/
def Reg.ofOffset (o : Nat) : Option Reg := allRegs.find? fun r => r.offset == o

/-- Read a register (R30): FLAGS is computed from TYPE (R26), CMD reads 0 (R29). -/
def readReg (r : Reg) (s : State) : Word :=
  match r with
  | .type => s.type
  | .len => s.len
  | .src => s.src
  | .lim => s.lim
  | .dst => s.dst
  | .crc => s.crc
  | .elen => s.elen
  | .pay => s.pay
  | .acc => s.acc
  | .flags => flagsOf s.type
  | .status => s.status
  | .einfo => s.einfo
  | .cmd => 0

/-- The host's write of a register other than CMD (R30): an RW register stores the value unchanged, a write to an RO register
is ignored. (CMD stores nothing; what a write to it does is `performRegWrite`'s matter.) -/
def writeReg (r : Reg) (v : Word) (s : State) : State :=
  match r with
  | .type => { s with type := v }
  | .len => { s with len := v }
  | .src => { s with src := v }
  | .lim => { s with lim := v }
  | .dst => { s with dst := v }
  | .crc => s
  | .elen => s
  | .pay => s
  | .acc => s
  | .flags => s
  | .status => s
  | .einfo => s
  | .cmd => s

/-! ## Reset and the host's next action -/

/-- The reset event (R144): every register to its value of R34; BUF is not changed (R146). -/
def resetRegisters (s : State) : State :=
  { State.reset with mem := s.mem, params := s.params, actions := s.actions, reply := s.reply }

/-- Give the host its reply (R109). -/
def answer (r : Reply) (s : State) : State := { s with reply := r }

/-- The host's next action, and the state in which it is performed: the action taken off the list, no reply yet (R7). -/
def nextAction (s : State) : Option (HostAction × State) :=
  match s.actions with
  | [] => none
  | a :: rest => some (a, { s with actions := rest, reply := .nothing })

end Sys2Proof.Machine
end

