-- ==== Sys2Proof/Machine/Control.lean ====
section
/-! DEFINITION. The control and chunk-type commands: NOP (R71) and TCHK (R72). -/

namespace Sys2Proof.Machine

/-- NOP (R71): clears STATUS and EINFO. -/
def execNop (s : State) : Host.Outcome State Fault Refusal := .next (succeed s)

/-- TCHK (R72): E_TYPE with the value of TYPE unless its four bytes are letters. -/
def execTchk (s : State) : Host.Outcome State Fault Refusal :=
  .next (if allLetters s.type then succeed s else raise .type s.type s)

end Sys2Proof.Machine
end

