-- ==== Sys2Proof/Machine/Crc.lean ====
section
/-! DEFINITION. The CRC commands: CRCINIT, CRCB, CRCUPD, CRCFIN (R85 to R88) and CRC32 (R89). -/

namespace Sys2Proof.Machine

/-- CRCINIT (R85). -/
def execCrcinit (s : State) : Host.Outcome State Fault Refusal := .next (succeed { s with acc := crcOnes })

/-- CRCB #imm8 (R86). -/
def execCrcb (imm8 : Byte) (s : State) : Host.Outcome State Fault Refusal :=
  .next (succeed { s with acc := crcStep s.acc imm8 })

/-- CRCUPD (R87). -/
def execCrcupd (s : State) : Host.Outcome State Fault Refusal :=
  .next (if s.SourceInBounds then succeed { s with acc := crcFold s.acc s.sourceBytes } else raise .bounds 0 s)

/-- CRCFIN (R88): ACC is kept. -/
def execCrcfin (s : State) : Host.Outcome State Fault Refusal := .next (succeed { s with crc := s.acc ^^^ crcOnes })

/-- CRC32 (R89): ACC is neither read nor written. -/
def execCrc32 (s : State) : Host.Outcome State Fault Refusal :=
  .next (if s.SourceInBounds then succeed { s with crc := crc32 s.sourceBytes } else raise .bounds 0 s)

end Sys2Proof.Machine
end

