-- ==== Sys2Proof/Machine/Record.lean ====
section
/-! DEFINITION. The record commands: SER (R95), which writes a chunk record in the wire format of R93, and DES (R100), which
parses one. Sums of addresses and lengths are over the naturals (R10). -/

namespace Sys2Proof.Machine

/-- The encoded length of a record with payload length `l` (R94). -/
def encodedLength (l : Nat) : Nat := l + 12

/-- The four writes of SER (R93, R95): length, type, payload and CRC of a record at `d`. -/
def Mem.writeRecord (m : Mem) (d : Nat) (len type : Word) (payload : List Byte) (crc : Word) : Mem :=
  let m1 := m.writeBytes d (bytesBe32 len)
  let m2 := m1.writeBytes (d + 4) (bytesBe32 type)
  let m3 := m2.writeBytes (d + 8) payload
  m3.writeBytes (d + 8 + len.toNat) (bytesBe32 crc)

/-- The payload range of SER shares a byte with its output range (R95, R134). -/
abbrev State.SerOverlap (s : State) : Prop :=
  0 < s.len.toNat ∧ s.src.toNat < s.dst.toNat + encodedLength s.len.toNat ∧ s.dst.toNat < s.src.toNat + s.len.toNat

/-- What SER leaves when all its checks pass (R95). -/
def serCommit (s : State) : State :=
  let crc := chunkCrc s.type s.sourceBytes
  succeed { s with
    mem := s.mem.writeRecord s.dst.toNat s.len s.type s.sourceBytes crc
    crc := crc
    elen := BitVec.ofNat 32 (encodedLength s.len.toNat)
    dst := BitVec.ofNat 32 (s.dst.toNat + encodedLength s.len.toNat) }

/-- SER (R95): bounds, type, overlap, in this order (R139). -/
def execSer (s : State) : Host.Outcome State Fault Refusal :=
  .next
    (if ¬ s.SourceInBounds then raise .bounds 0 s
     else if s.dst.toNat + encodedLength s.len.toNat > s.params.bufSize then raise .bounds 0 s
     else if ¬ allLetters s.type then raise .type s.type s
     else if s.SerOverlap then raise .overlap 0 s
     else serCommit s)

/-- The number of bytes from SRC to LIM, the document's "bytes remaining" (R100). -/
def State.avail (s : State) : Nat := s.lim.toNat - s.src.toNat

/-- The payload length read from the record at SRC (R100, step 2). -/
def State.wireLength (s : State) : Nat := (s.mem.readBe32 s.src.toNat).toNat

/-- The type read from the record at SRC (R100, step 4). -/
def State.wireType (s : State) : Word := s.mem.readBe32 (s.src.toNat + 4)

/-- The CRC stored in the record at SRC (R100, step 6). -/
def State.wireCrc (s : State) : Word := s.mem.readBe32 (s.src.toNat + 8 + s.wireLength)

/-- The CRC recomputed over the record at SRC (R100, step 7): over the type bytes and the payload as they stand in BUF. -/
def State.recomputedCrc (s : State) : Word :=
  crc32 (s.mem.readBytes (s.src.toNat + 4) 4 ++ s.mem.readBytes (s.src.toNat + 8) s.wireLength)

/-- What DES leaves when all its checks pass (R100, step 8). -/
def desCommit (s : State) : State :=
  succeed { s with
    type := s.wireType
    len := BitVec.ofNat 32 s.wireLength
    crc := s.recomputedCrc
    pay := BitVec.ofNat 32 (s.src.toNat + 8)
    elen := BitVec.ofNat 32 (encodedLength s.wireLength)
    src := BitVec.ofNat 32 (s.src.toNat + encodedLength s.wireLength) }

/-- DES (R100): bounds, truncation, type, CRC, in this order (R139). -/
def execDes (s : State) : Host.Outcome State Fault Refusal :=
  .next
    (if s.lim.toNat > s.params.bufSize then raise .bounds 0 s
     else if s.src.toNat > s.lim.toNat then raise .bounds 0 s
     else if s.avail < 4 then raise .trunc (BitVec.ofNat 32 s.avail) s
     else if s.avail < encodedLength s.wireLength then raise .trunc (BitVec.ofNat 32 s.avail) s
     else if ¬ allLetters s.wireType then raise .type s.wireType s
     else if s.recomputedCrc ≠ s.wireCrc then raise .crc s.recomputedCrc s
     else desCommit s)

end Sys2Proof.Machine
end

