-- ==== Sys2Proof/Machine/Dispatch.lean ====
section
/-! DEFINITION. The dispatch: one arm per command, in the order of spec/opcode_table.json (R58). -/

namespace Sys2Proof.Machine

def exec (i : Instr) (s : State) : Host.Outcome State Fault Refusal :=
  match i with
  | .nop => Sys2Proof.Machine.execNop s
  | .tchk => Sys2Proof.Machine.execTchk s
  | .crcinit => Sys2Proof.Machine.execCrcinit s
  | .crcb imm8 => Sys2Proof.Machine.execCrcb imm8 s
  | .crcupd => Sys2Proof.Machine.execCrcupd s
  | .crcfin => Sys2Proof.Machine.execCrcfin s
  | .crc32 => Sys2Proof.Machine.execCrc32 s
  | .ser => Sys2Proof.Machine.execSer s
  | .des => Sys2Proof.Machine.execDes s

end Sys2Proof.Machine
end

