-- ==== Sys2Proof/Machine/HostPort.lean ====
section
/-! DEFINITION. The engine's side of the host's actions (R30, R45, R47, R109): which accesses have a meaning, what each
does, and the execution of a command word written to CMD (R29, R62). -/

namespace Sys2Proof.Machine

/-- The register that an access names, or why it names none: not a word, not aligned, not listed (R30, U1, U2). -/
def accessedReg (width : Width) (offset : Nat) : Except Refusal Reg :=
  if width ≠ .word then .error .narrowRegisterAccess
  else if offset % 4 ≠ 0 then .error .unalignedRegisterAccess
  else match Reg.ofOffset offset with
    | some r => .ok r
    | none => .error .unlistedRegisterOffset

/-- A register write (R30): to CMD it hands the engine a command word (R29). -/
def performRegWrite (width : Width) (offset : Nat) (v : Word) (s : State) : Performed :=
  match accessedReg width offset with
  | .error r => .refuse r
  | .ok r => if r = .cmd then .command v s else .done (writeReg r v s)

/-- A register read (R30): the value is the reply, and nothing else changes. -/
def performRegRead (width : Width) (offset : Nat) (s : State) : Performed :=
  match accessedReg width offset with
  | .error r => .refuse r
  | .ok r => .done (answer (.word (readReg r s)) s)

/-- A write of one byte of BUF (R31, R48). -/
def performBufWrite (index : Nat) (v : Byte) (s : State) : Performed :=
  if index < s.params.bufSize then .done { s with mem := s.mem.write index v } else .refuse .bufIndexOutOfRange

/-- A read of one byte of BUF (R31, R48). -/
def performBufRead (index : Nat) (s : State) : Performed :=
  if index < s.params.bufSize then .done (answer (.byte (s.mem.read index)) s) else .refuse .bufIndexOutOfRange

/-- A bus address inside the register window (R47). -/
abbrev InRegWindow (p : Params) (addr : Nat) : Prop := p.regBase ≤ addr ∧ addr < p.regBase + Params.regWindow

/-- A bus address inside the BUF window (R47). -/
abbrev InBufWindow (p : Params) (addr : Nat) : Prop := p.bufBase ≤ addr ∧ addr < p.bufBase + p.bufSize

/-- A bus write (R47, R66): a word in the register window, a byte in the BUF window. -/
def performBusWrite (width : Width) (addr : Nat) (v : Word) (s : State) : Performed :=
  if InRegWindow s.params addr then performRegWrite width (addr - s.params.regBase) v s
  else if InBufWindow s.params addr then
    if width = .byte then performBufWrite (addr - s.params.bufBase) (v.extractLsb' 0 8) s else .refuse .wideBufAccess
  else .refuse .unmappedBusAddress

/-- A bus read (R47, R66). -/
def performBusRead (width : Width) (addr : Nat) (s : State) : Performed :=
  if InRegWindow s.params addr then performRegRead width (addr - s.params.regBase) s
  else if InBufWindow s.params addr then
    if width = .byte then performBufRead (addr - s.params.bufBase) s else .refuse .wideBufAccess
  else .refuse .unmappedBusAddress

/-- One host action, or a reset between two (R109, R144). -/
def perform (a : HostAction) (s : State) : Performed :=
  match a with
  | .regWrite width offset v => performRegWrite width offset v s
  | .regRead width offset => performRegRead width offset s
  | .bufWrite index v => performBufWrite index v s
  | .bufRead index => performBufRead index s
  | .busWrite width addr v => performBusWrite width addr v s
  | .busRead width addr => performBusRead width addr s
  | .reset => .done (resetRegisters s)

/-- A command word written to CMD (R29): the command it decodes to runs to its end; an illegal word executes as
E_ILLEGAL with the word as context (R62, R135). -/
def runCommand (w : Word) (s : State) : Host.Outcome State Fault Refusal :=
  match decode w with
  | .ok i => exec i s
  | .error _ => .next (raise .illegal w s)

/-- What performing an action comes to, as a step's outcome. -/
def conclude (p : Performed) : Host.Outcome State Fault Refusal :=
  match p with
  | .done s => .next s
  | .command w s => runCommand w s
  | .refuse r => .refused r

/-- The action by which the host issues a command word: a word write at the offset of CMD (R29, R66). -/
def issue (w : Word) : HostAction := .regWrite .word Reg.cmd.offset w

end Sys2Proof.Machine
end

