-- ==== Sys2Proof/Machine/Step.lean ====
section
/-! DEFINITION. One step of the machine: one host action, with the whole command it starts if it is a write to CMD (R7).
With no action pending the engine is idle and keeps its state (R35, R143, R145). -/

namespace Sys2Proof.Machine

/-- One step (R7). -/
def step (s : State) : Host.Outcome State Fault Refusal :=
  match nextAction s with
  | none => .next s
  | some (a, t) => conclude (perform a t)

/-- `s` with a command word as the host's very next action (log 5): the engine fetches nothing, a command reaches it only
as the value of a host write to CMD (R24). Of `w` the low `nbits` bits count, every bit above them is 0. -/
def State.withFetchWord (s : State) (nbits w : Nat) : State :=
  { s with actions := issue (BitVec.ofNat 32 (w % 2 ^ nbits)) :: s.actions }

end Sys2Proof.Machine
end

