-- ==== Sys2Proof/Machine/Listing.lean ====
section
/-! DEFINITION. The lines of the spec's listings as lists of host actions (R66), and the pseudo-instructions with their
expansions (R67). -/

namespace Sys2Proof.Machine

/-- `wr <REG>, <value>` (R66). -/
def lineWr (r : Reg) (v : Word) : List HostAction := [.regWrite .word r.offset v]

/-- `rd <REG>` (R66). -/
def lineRd (r : Reg) : List HostAction := [.regRead .word r.offset]

/-- `stb <addr>, <byte>` (R66). -/
def lineStb (addr : Nat) (b : Byte) : List HostAction := [.bufWrite addr b]

/-- `ldb <addr>` (R66). -/
def lineLdb (addr : Nat) : List HostAction := [.bufRead addr]

/-- A command's mnemonic, `CRCB #<imm8>` among them (R66). -/
def lineCmd (i : Instr) : List HostAction := [issue (encode i)]

/-- `clrerr` (R67). -/
def lineClrerr : List HostAction := lineCmd .nop

/-- `crc4 #<imm32>` (R67): the four bytes of a constant, byte 0 first. -/
def lineCrc4 (t : Word) : List HostAction := (bytesBe32 t).flatMap fun b => lineCmd (.crcb b)

/-- `range <addr>, <n>` (R67). -/
def lineRange (addr n : Word) : List HostAction := lineWr .src addr ++ lineWr .len n

/-- `input <addr>, <end>` (R67). -/
def lineInput (addr lim : Word) : List HostAction := lineWr .src addr ++ lineWr .lim lim

/-- `stm <addr>, <b0> <b1> ...` (R67): also what a wider host write to BUF amounts to, its bytes in address order (R45). -/
def lineStm : Nat → List Byte → List HostAction
  | _, [] => []
  | a, b :: bs => lineStb a b ++ lineStm (a + 1) bs

/-- `chunkcrc #<imm32>` (R67). -/
def lineChunkcrc (t : Word) : List HostAction := lineCmd .crcinit ++ lineCrc4 t ++ lineCmd .crcupd ++ lineCmd .crcfin

end Sys2Proof.Machine
end

