-- ==== Sys2Proof/Safety.lean ====
section
/-! DEFINITION. The terms the claims use: good states and legal results, admitted host actions, a host's run, the wire
record of R93, and the read and write sets of R23. -/

namespace Sys2Proof.Machine

/-- The values of STATUS that the engine writes (R27, R136). -/
def legalStatus : List Word := [0, 1, 2, 3, 8, 9, 10]

/-- What STATUS and EINFO say together (R28, R129 to R135): 0 on success, on E_BOUNDS and on E_OVERLAP; a value that is not
four letters on E_TYPE; a count of at most BUF_SIZE bytes on E_TRUNC; a word that is no command on E_ILLEGAL. -/
def State.resultWf (s : State) : Bool :=
  legalStatus.contains s.status &&
    (!(s.status == 0 || s.status == 8 || s.status == 9) || s.einfo == 0) &&
    (!(s.status == 1) || !allLetters s.einfo) &&
    (!(s.status == 2) || decide (s.einfo.toNat ≤ s.params.bufSize)) &&
    (!(s.status == 10) || !wordLegal s.einfo)

/-- The invariant of the engine: legal parameters (R5, R47); BUF in its canonical form and inside its bounds (R31, R48); a
legal result (R27, R136); ELEN and PAY those of a record inside BUF, or still 0 (R20, R21). -/
structure State.Inv (s : State) : Prop where
  paramsWf : s.params.wf = true
  memWf : s.mem.wf = true
  memWithin : s.mem.within s.params.bufSize = true
  resultWf : s.resultWf = true
  elenBound : s.elen = 0 ∨ (12 ≤ s.elen.toNat ∧ s.elen.toNat ≤ s.params.bufSize)
  payBound : s.pay = 0 ∨ (8 ≤ s.pay.toNat ∧ s.pay.toNat + 4 ≤ s.params.bufSize)

/-- A host action to which the spec gives a meaning in a machine with parameters `p` (R30, R45, R47, R48, U1 to U3). -/
def HostAction.admitted (p : Params) : HostAction → Bool
  | .regWrite width offset _ => width == .word && (allRegs.map Reg.offset).contains offset
  | .regRead width offset => width == .word && (allRegs.map Reg.offset).contains offset
  | .bufWrite index _ => decide (index < p.bufSize)
  | .bufRead index => decide (index < p.bufSize)
  | .busWrite width addr _ =>
    (width == .word && (allRegs.map fun r => p.regBase + r.offset).contains addr) ||
      (width == .byte && decide (p.bufBase ≤ addr) && decide (addr < p.bufBase + p.bufSize))
  | .busRead width addr =>
    (width == .word && (allRegs.map fun r => p.regBase + r.offset).contains addr) ||
      (width == .byte && decide (p.bufBase ≤ addr) && decide (addr < p.bufBase + p.bufSize))
  | .reset => true

/-! ## Runs and records -/

/-- The host performs the actions `as` one after another, each as one step of the machine (R7, R50). -/
def hostRun : List HostAction → State → Host.Outcome State Fault Refusal
  | [], s => .next s
  | a :: as, s =>
    match step { s with actions := [a] } with
    | .next t => hostRun as t
    | .fault r => .fault r
    | .refused r => .refused r

/-- An ASCII letter, by the numeric ranges of R25. -/
abbrev Letter (b : Byte) : Prop := (0x41 ≤ b.toNat ∧ b.toNat ≤ 0x5A) ∨ (0x61 ≤ b.toNat ∧ b.toNat ≤ 0x7A)

/-- Four letters, by the byte slices of R14. -/
abbrev FourLetters (t : Word) : Prop :=
  Letter (t.extractLsb' 24 8) ∧ Letter (t.extractLsb' 16 8) ∧ Letter (t.extractLsb' 8 8) ∧ Letter (t.extractLsb' 0 8)

/-- The bytes of a chunk record on the wire, by the table of R93: length, type, payload, CRC over type and payload. -/
def wireRecord (type : Word) (payload : List Byte) : List Byte :=
  bytesBe32 (BitVec.ofNat 32 payload.length) ++ bytesBe32 type ++ payload ++ bytesBe32 (crc32 (bytesBe32 type ++ payload))

/-- The host's lines for one record of a container (R97, R116): it sets TYPE, LEN and SRC and issues SER. -/
def serLines (type len src : Word) : List HostAction :=
  lineWr .type type ++ lineWr .len len ++ lineWr .src src ++ lineCmd .ser

/-- A piece of a byte sequence that the incremental commands are fed (R91): one byte, or a range of BUF. -/
inductive CrcPiece where
  | imm (b : Byte)
  | range (addr count lim : Word)
deriving DecidableEq, Repr

/-- The host's lines for one piece (R91): CRCB, or the operands and CRCUPD. -/
def CrcPiece.lines : CrcPiece → List HostAction
  | .imm b => lineCmd (.crcb b)
  | .range addr count lim => lineRange addr count ++ lineWr .lim lim ++ lineCmd .crcupd

/-- The bytes of one piece. -/
def CrcPiece.bytes (m : Mem) : CrcPiece → List Byte
  | .imm b => [b]
  | .range addr count _ => m.readBytes addr.toNat count.toNat

/-- A piece that raises no E_BOUNDS (R87). -/
abbrev CrcPiece.Fits (p : Params) : CrcPiece → Prop
  | .imm _ => True
  | .range addr count lim => lim.toNat ≤ p.bufSize ∧ addr.toNat + count.toNat ≤ lim.toNat

/-! ## The table of R23 -/

/-- The nine operand and result registers (10_state.md section 2). -/
def operandRegs : List Reg := [.type, .len, .src, .lim, .dst, .crc, .elen, .pay, .acc]

/-- The registers that R23 marks "r". -/
def readSet : Instr → List Reg
  | .nop => []
  | .tchk => [.type]
  | .crcinit => []
  | .crcb _ => [.acc]
  | .crcupd => [.len, .src, .lim, .acc]
  | .crcfin => [.acc]
  | .crc32 => [.len, .src, .lim]
  | .ser => [.type, .len, .src, .lim, .dst]
  | .des => [.src, .lim]

/-- The registers that R23 marks "w". -/
def writeSet : Instr → List Reg
  | .nop => []
  | .tchk => []
  | .crcinit => [.acc]
  | .crcb _ => [.acc]
  | .crcupd => [.acc]
  | .crcfin => [.crc]
  | .crc32 => [.crc]
  | .ser => [.dst, .crc, .elen]
  | .des => [.type, .len, .src, .crc, .elen, .pay]

/-- The codes a command can leave in STATUS (R139), success among them. -/
def resultCodes : Instr → List Word
  | .nop => [0]
  | .tchk => [0, 1]
  | .crcinit => [0]
  | .crcb _ => [0]
  | .crcupd => [0, 8]
  | .crcfin => [0]
  | .crc32 => [0, 8]
  | .ser => [0, 8, 1, 9]
  | .des => [0, 8, 2, 1, 3]

/-- `s` with another value in one of the nine registers, whoever may write it. -/
def State.poke (r : Reg) (v : Word) (s : State) : State :=
  match r with
  | .type => { s with type := v }
  | .len => { s with len := v }
  | .src => { s with src := v }
  | .lim => { s with lim := v }
  | .dst => { s with dst := v }
  | .crc => { s with crc := v }
  | .elen => { s with elen := v }
  | .pay => { s with pay := v }
  | .acc => { s with acc := v }
  | .flags => s
  | .status => s
  | .einfo => s
  | .cmd => s

end Sys2Proof.Machine
end

