-- ==== Sys2Proof/Certificates/Slice0/Obligations.lean ====
section
/-! DEFINITION. The statements for the provers. Each docstring names the rule or the sentence of spec/ it formalises;
"log <n>" names a choice of the model (notes/assumptions/<n>.md). Updates of the state are written out as records, so that
a statement about a next state is a statement about every field of it. -/

open Sys2Proof Sys2Proof.Machine

/-! ## Encoding -/

/-- Decoding and encoding agree in both directions, for every command word and every command with every immediate
(30_encoding.md section 6 and its decode function; every command is well formed, R60). -/
def Obligations.DecodeInvertsEncode : Prop :=
  ∀ (w : Word) (i : Instr), decode w = .ok i ↔ encode i = w

/-- R58: a command word `w` is a command exactly when `w & mask = match`, row by row of the table; the immediate of CRCB is
the word's bits 15:8 (R60). -/
def Obligations.DecodeAgreesWithMatchAndMask : Prop :=
  ∀ w : Word,
    (decode w = .ok .nop ↔ w &&& 0xFFFFFFFF#32 = 0x00000000#32) ∧
    (decode w = .ok .tchk ↔ w &&& 0xFFFFFFFF#32 = 0x00000001#32) ∧
    (decode w = .ok .crcinit ↔ w &&& 0xFFFFFFFF#32 = 0x00000010#32) ∧
    (decode w = .ok (.crcb (w.extractLsb' 8 8)) ↔ w &&& 0xFFFF00FF#32 = 0x00000011#32) ∧
    (∀ b, decode w = .ok (.crcb b) → b = w.extractLsb' 8 8) ∧
    (decode w = .ok .crcupd ↔ w &&& 0xFFFFFFFF#32 = 0x00000012#32) ∧
    (decode w = .ok .crcfin ↔ w &&& 0xFFFFFFFF#32 = 0x00000013#32) ∧
    (decode w = .ok .crc32 ↔ w &&& 0xFFFFFFFF#32 = 0x00000014#32) ∧
    (decode w = .ok .ser ↔ w &&& 0xFFFFFFFF#32 = 0x00000020#32) ∧
    (decode w = .ok .des ↔ w &&& 0xFFFFFFFF#32 = 0x00000021#32)

/-- R62: which words are illegal, and that an illegal word executes as E_ILLEGAL (code 10) with the word as context and no
other effect. -/
def Obligations.IllegalWordsRaiseIllegal : Prop :=
  ∀ w : Word,
    ((∃ r, decode w = .error r) ↔
      (w.extractLsb' 0 8 ∉ ([0x00, 0x01, 0x10, 0x11, 0x12, 0x13, 0x14, 0x20, 0x21] : List Byte) ∨
        w.extractLsb' 16 16 ≠ 0 ∨ (w.extractLsb' 0 8 ≠ 0x11 ∧ w.extractLsb' 8 8 ≠ 0))) ∧
    ((∃ r, decode w = .error r) → ∀ s : State, runCommand w s = .next { s with status := 10, einfo := w })

/-- Words written out from the tables of 30_encoding.md section 2 and their commands, one of each family, and illegal
neighbours. -/
def Obligations.SampleWordsDecode : Prop :=
  decode 0x00000000 = .ok .nop ∧ decode 0x00000001 = .ok .tchk ∧ decode 0x00006111 = .ok (.crcb 0x61) ∧
    decode 0x0000FF11 = .ok (.crcb 0xFF) ∧ decode 0x00000014 = .ok .crc32 ∧ decode 0x00000020 = .ok .ser ∧
    decode 0x00000021 = .ok .des ∧ decode 0x00000120 = .error .immField ∧ decode 0x0001FF11 = .error .zeroField ∧
    decode 0x00000022 = .error .opcode

/-! ## A step runs the decoded command -/

/-- When the host's next action is a word write of `w` to CMD and `w` decodes to `i`, the step is `exec i`, in the state with
that action taken off the list and no reply (10_state.md section 5, CMD; the list and the reply are the model's choice,
logs 2 and 3). An illegal `w` raises E_ILLEGAL in that same state. -/
def Obligations.StepRunsDecodedCommand : Prop :=
  ∀ (s : State) (w : Word) (rest : List HostAction), s.actions = .regWrite .word 0x30 w :: rest →
    (∀ i, decode w = .ok i → step s = exec i { s with actions := rest, reply := .nothing }) ∧
    (∀ r, decode w = .error r →
      step s = .next { s with actions := rest, reply := .nothing, status := 10, einfo := w })

/-- A command word placed as the next to run is the one the next step runs (logs 2, 3 and 5). -/
def Obligations.PlacedWordRunsNext : Prop :=
  ∀ (s : State) (w : Nat) (i : Instr), decodeTableWord 32 w = some i →
    step (s.withFetchWord 32 w) = exec i { s with reply := .nothing }

/-- With no host action to perform the engine keeps its state (10_state.md section 8, "the engine waits for the host's first
action"; the list of actions is the model's choice, log 2). -/
def Obligations.IdleEngineKeepsState : Prop :=
  ∀ s : State, s.actions = [] → step s = .next s

/-! ## Control and type -/

/-- R71: NOP, its word and its effect; right after reset it changes nothing. -/
def Obligations.NopClearsResult : Prop :=
  decode 0x00000000 = .ok .nop ∧ (∀ s : State, exec .nop s = .next { s with status := 0, einfo := 0 }) ∧
    exec .nop State.reset = .next State.reset

/-- R72: TCHK, its word; success on four letters, E_TYPE with the value of TYPE otherwise; it succeeds exactly when
FLAGS.ALPHA is 1; TYPE is changed in neither outcome. -/
def Obligations.TchkChecksLetters : Prop :=
  decode 0x00000001 = .ok .tchk ∧
    ∀ s : State,
      (FourLetters s.type → exec .tchk s = .next { s with status := 0, einfo := 0 }) ∧
      (¬ FourLetters s.type → exec .tchk s = .next { s with status := 1, einfo := s.type }) ∧
      (FourLetters s.type ↔ (readReg .flags s).getLsbD 4 = true)

/-- R26: the six bits of FLAGS as functions of TYPE, bits 31:6 zero, FLAGS a function of TYPE alone and written by nothing,
its value after reset (an inference that R26 draws from the reset value of TYPE) and the three worked values. -/
def Obligations.FlagsArePredicatesOfType : Prop :=
  (∀ s : State,
    ((readReg .flags s).getLsbD 0 = true ↔ s.type.getLsbD 29 = false) ∧
    ((readReg .flags s).getLsbD 1 = true ↔ s.type.getLsbD 21 = false) ∧
    ((readReg .flags s).getLsbD 2 = true ↔ s.type.getLsbD 13 = false) ∧
    ((readReg .flags s).getLsbD 3 = true ↔ s.type.getLsbD 5 = true) ∧
    ((readReg .flags s).getLsbD 4 = true ↔ FourLetters s.type) ∧
    ((readReg .flags s).getLsbD 5 = true ↔ FourLetters s.type ∧ s.type.getLsbD 13 = false) ∧
    (∀ k, 6 ≤ k → (readReg .flags s).getLsbD k = false) ∧
    (∀ t : State, t.type = s.type → readReg .flags t = readReg .flags s) ∧
    (∀ v, writeReg .flags v s = s)) ∧
  readReg .flags State.reset = 0x00000007 ∧
  (∀ s : State, s.type = 0x52755374 → readReg .flags s = 0x0000003D) ∧
  (∀ s : State, s.type = 0x52757374 → readReg .flags s = 0x00000019) ∧
  (∀ s : State, s.type = 0x52753174 → readReg .flags s = 0x00000009)

/-- R74: TCHK succeeds if and only if all four bytes of TYPE are letters; for a TYPE that passed it RESERVED_VALID is 1 exactly
when byte 2 is in 0x41 to 0x5A; the two fixture values. With it 40_control_and_type.md section 3: for such a TYPE, VALID
equals RESERVED_VALID. -/
def Obligations.TypePredicatesOfLetters : Prop :=
  (∀ s t : State, exec .tchk s = .next t →
    (t.status = 0 ↔ FourLetters s.type) ∧
    (t.status = 0 →
      ((readReg .flags s).getLsbD 2 = true ↔
        0x41 ≤ (s.type.extractLsb' 8 8).toNat ∧ (s.type.extractLsb' 8 8).toNat ≤ 0x5A) ∧
      (readReg .flags s).getLsbD 5 = (readReg .flags s).getLsbD 2)) ∧
  (∀ s : State, s.type = 0x52755374 → readReg .flags s = 0x3D) ∧
  (∀ s : State, s.type = 0x52757374 → readReg .flags s = 0x19)

/-! ## CRC -/

/-- R85: CRCINIT, its word and its effect. -/
def Obligations.CrcinitSetsAcc : Prop :=
  decode 0x00000010 = .ok .crcinit ∧
    ∀ s : State, exec .crcinit s = .next { s with acc := 0xFFFFFFFF, status := 0, einfo := 0 }

/-- R86: CRCB, its word for every immediate, and its effect. -/
def Obligations.CrcbFeedsByte : Prop :=
  ∀ b : Byte, decode (0x00000011 ||| (b.setWidth 32 <<< 8)) = .ok (.crcb b) ∧
    ∀ s : State, exec (.crcb b) s = .next { s with acc := crcStep s.acc b, status := 0, einfo := 0 }

/-- R87: CRCUPD, its word, its effect, and when it raises E_BOUNDS. -/
def Obligations.CrcupdFeedsRange : Prop :=
  decode 0x00000012 = .ok .crcupd ∧
    ∀ s : State,
      (s.lim.toNat ≤ s.params.bufSize → s.src.toNat + s.len.toNat ≤ s.lim.toNat →
        exec .crcupd s = .next
          { s with acc := crcFold s.acc (s.mem.readBytes s.src.toNat s.len.toNat), status := 0, einfo := 0 }) ∧
      (s.lim.toNat > s.params.bufSize ∨ s.src.toNat + s.len.toNat > s.lim.toNat →
        exec .crcupd s = .next { s with status := 8, einfo := 0 })

/-- R88: CRCFIN, its word and its effect; ACC is kept. -/
def Obligations.CrcfinFinishes : Prop :=
  decode 0x00000013 = .ok .crcfin ∧
    ∀ s : State, exec .crcfin s = .next { s with crc := s.acc ^^^ 0xFFFFFFFF, status := 0, einfo := 0 }

/-- R89: CRC32, its word, its effect, and when it raises E_BOUNDS. -/
def Obligations.Crc32ChecksumsRange : Prop :=
  decode 0x00000014 = .ok .crc32 ∧
    ∀ s : State,
      (s.lim.toNat ≤ s.params.bufSize → s.src.toNat + s.len.toNat ≤ s.lim.toNat →
        exec .crc32 s = .next
          { s with
            crc := crcFold 0xFFFFFFFF (s.mem.readBytes s.src.toNat s.len.toNat) ^^^ 0xFFFFFFFF
            status := 0
            einfo := 0 }) ∧
      (s.lim.toNat > s.params.bufSize ∨ s.src.toNat + s.len.toNat > s.lim.toNat →
        exec .crc32 s = .next { s with status := 8, einfo := 0 })

/-- 41_crc.md section 1, the sentence on feeding two sequences in turn: a fold over a concatenation is the fold of folds. -/
def Obligations.CrcFoldConcatenates : Prop :=
  ∀ (a : Word) (s t : List Byte), crcFold a (s ++ t) = crcFold (crcFold a s) t

/-- 41_crc.md section 1, "Table form": the bit-serial step equals the step by table, for every accumulator and byte, where entry
`i` of the table is the step of 0 by `i`; and the three entries written there, which tell the polynomial from any other. -/
def Obligations.CrcStepHasTableForm : Prop :=
  (∀ (a : Word) (b : Byte),
    crcStep a b = crcStep 0x00000000 ((a ^^^ b.setWidth 32).extractLsb' 0 8) ^^^ (a >>> 8)) ∧
  crcStep 0x00000000 0x01 = 0x77073096 ∧ crcStep 0x00000000 0x80 = 0xEDB88320 ∧ crcStep 0x00000000 0xFF = 0x2D02EF8D

/-- 41_crc.md section 4, "Error detection": the checksum is affine over exclusive-or, a fold of exactly one set bit is not 0,
and so changing one bit of a sequence always changes its checksum. -/
def Obligations.CrcDetectsSingleBitErrors : Prop :=
  (∀ s t : List Byte, s.length = t.length →
    crc32 s ^^^ crc32 t = crcFold 0 (List.zipWith (fun x y => x ^^^ y) s t)) ∧
  (∀ n m k : Nat, k < 8 → crcFold 0 (List.replicate n 0 ++ BitVec.twoPow 8 k :: List.replicate m 0) ≠ 0) ∧
  (∀ (p q : List Byte) (b : Byte) (k : Nat), k < 8 →
    crc32 (p ++ (b ^^^ BitVec.twoPow 8 k) :: q) ≠ crc32 (p ++ b :: q))

/-- 41_crc.md section 4, "Equivalence of the two interfaces": CRCINIT, then the pieces of a byte sequence in order, each by
CRCB or by CRCUPD over a range, then CRCFIN, leave in CRC the checksum of the whole sequence, and BUF as it was. From every
state; a run is a sequence of host actions (log 2). -/
def Obligations.IncrementalEqualsOneShot : Prop :=
  ∀ (s : State) (ps : List CrcPiece), (∀ p ∈ ps, p.Fits s.params) →
    ∃ t, hostRun (lineCmd .crcinit ++ ps.flatMap CrcPiece.lines ++ lineCmd .crcfin) s = .next t ∧
      t.crc = crc32 (ps.flatMap (CrcPiece.bytes s.mem)) ∧ t.status = 0 ∧ t.mem = s.mem

/-- 41_crc.md section 4, the last sentence on equivalence: the pseudo-instruction chunkcrc leaves in CRC the value that SER
writes for the same TYPE and payload (log 2). -/
def Obligations.ChunkcrcGivesTheCrcOfSer : Prop :=
  ∀ s t : State, exec .ser s = .next t → t.status = 0 →
    ∃ u, hostRun (lineChunkcrc s.type) s = .next u ∧ u.crc = t.crc ∧ u.status = 0 ∧ u.mem = s.mem

/-! ## Records -/

/-- R40: a 32-bit value stands in BUF with its most significant byte at the lowest index, `be32` reads back what
`bytes_be32` writes, and the two examples. -/
def Obligations.WireIntegersAreBigEndian : Prop :=
  (∀ (m : Mem) (a : Nat) (v : Word),
    (m.writeBytes a (bytesBe32 v)).read a = v.extractLsb' 24 8 ∧
    (m.writeBytes a (bytesBe32 v)).read (a + 1) = v.extractLsb' 16 8 ∧
    (m.writeBytes a (bytesBe32 v)).read (a + 2) = v.extractLsb' 8 8 ∧
    (m.writeBytes a (bytesBe32 v)).read (a + 3) = v.extractLsb' 0 8 ∧
    (m.writeBytes a (bytesBe32 v)).readBe32 a = v) ∧
  (∀ b0 b1 b2 b3 : Byte, bytesBe32 (be32 b0 b1 b2 b3) = [b0, b1, b2, b3]) ∧
  bytesBe32 42 = [0x00, 0x00, 0x00, 0x2A] ∧ bytesBe32 2882656334 = [0xAB, 0xD1, 0xD8, 0x4E]

/-- R95: SER, its word; its checks in their order; and on success the record in BUF, every register and every other byte.
The parameters are legal (R5), so that the new DST and ELEN fit in 32 bits. -/
def Obligations.SerWritesTheRecord : Prop :=
  decode 0x00000020 = .ok .ser ∧
    ∀ s : State, s.params.wf = true →
      (s.lim.toNat > s.params.bufSize ∨ s.src.toNat + s.len.toNat > s.lim.toNat ∨
          s.dst.toNat + s.len.toNat + 12 > s.params.bufSize →
        exec .ser s = .next { s with status := 8, einfo := 0 }) ∧
      (s.lim.toNat ≤ s.params.bufSize → s.src.toNat + s.len.toNat ≤ s.lim.toNat →
          s.dst.toNat + s.len.toNat + 12 ≤ s.params.bufSize →
        (¬ FourLetters s.type → exec .ser s = .next { s with status := 1, einfo := s.type }) ∧
        (FourLetters s.type →
            (0 < s.len.toNat ∧ s.src.toNat < s.dst.toNat + s.len.toNat + 12 ∧ s.dst.toNat < s.src.toNat + s.len.toNat) →
          exec .ser s = .next { s with status := 9, einfo := 0 }) ∧
        (FourLetters s.type →
            ¬ (0 < s.len.toNat ∧ s.src.toNat < s.dst.toNat + s.len.toNat + 12 ∧ s.dst.toNat < s.src.toNat + s.len.toNat) →
          ∃ t, exec .ser s = .next t ∧
            t = { s with mem := t.mem, crc := t.crc, elen := t.elen, dst := t.dst, status := 0, einfo := 0 } ∧
            t.crc = crc32 (bytesBe32 s.type ++ s.mem.readBytes s.src.toNat s.len.toNat) ∧
            t.elen.toNat = s.len.toNat + 12 ∧ t.dst.toNat = s.dst.toNat + s.len.toNat + 12 ∧
            t.mem.readBytes s.dst.toNat (s.len.toNat + 12) =
              bytesBe32 s.len ++ bytesBe32 s.type ++ s.mem.readBytes s.src.toNat s.len.toNat ++ bytesBe32 t.crc ∧
            ∀ a, a < s.dst.toNat ∨ s.dst.toNat + s.len.toNat + 12 ≤ a → t.mem.read a = s.mem.read a))

/-- R96: the register CRC is never an input of SER, and two successful SER with equal TYPE, LEN and payload bytes write equal
records, wherever and from wherever. -/
def Obligations.SerRecordDependsOnTypeAndPayload : Prop :=
  ∀ s1 s2 t1 t2 : State, s1.type = s2.type → s1.len = s2.len →
    s1.mem.readBytes s1.src.toNat s1.len.toNat = s2.mem.readBytes s2.src.toNat s2.len.toNat →
    exec .ser s1 = .next t1 → t1.status = 0 → exec .ser s2 = .next t2 → t2.status = 0 →
    t1.crc = t2.crc ∧
      t1.mem.readBytes s1.dst.toNat (s1.len.toNat + 12) = t2.mem.readBytes s2.dst.toNat (s2.len.toNat + 12)

/-- R100: DES, its word; its checks in their order; and on success every register, with BUF untouched. `L` is the big-endian
number in the four bytes at SRC. The parameters are legal (R5), so that the new SRC, PAY and ELEN fit in 32 bits. -/
def Obligations.DesParsesTheRecord : Prop :=
  decode 0x00000021 = .ok .des ∧
    ∀ s : State, s.params.wf = true → ∀ L avail : Nat, ∀ type sum : Word,
      L = (s.mem.readBe32 s.src.toNat).toNat → avail = s.lim.toNat - s.src.toNat →
      type = s.mem.readBe32 (s.src.toNat + 4) →
      sum = crc32 (s.mem.readBytes (s.src.toNat + 4) 4 ++ s.mem.readBytes (s.src.toNat + 8) L) →
      (s.lim.toNat > s.params.bufSize ∨ s.src.toNat > s.lim.toNat →
        exec .des s = .next { s with status := 8, einfo := 0 }) ∧
      (s.lim.toNat ≤ s.params.bufSize → s.src.toNat ≤ s.lim.toNat →
        (avail < 4 ∨ avail < L + 12 → exec .des s = .next { s with status := 2, einfo := BitVec.ofNat 32 avail }) ∧
        (L + 12 ≤ avail →
          (¬ FourLetters type → exec .des s = .next { s with status := 1, einfo := type }) ∧
          (FourLetters type → sum ≠ s.mem.readBe32 (s.src.toNat + 8 + L) →
            exec .des s = .next { s with status := 3, einfo := sum }) ∧
          (FourLetters type → sum = s.mem.readBe32 (s.src.toNat + 8 + L) →
            ∃ t, exec .des s = .next t ∧
              t = { s with
                type := type, crc := sum, len := t.len, pay := t.pay, elen := t.elen, src := t.src
                status := 0, einfo := 0 } ∧
              t.len.toNat = L ∧ t.pay.toNat = s.src.toNat + 8 ∧ t.elen.toNat = L + 12 ∧
              t.src.toNat = s.src.toNat + L + 12)))

/-- 43_deserialize.md section 3, "Consumed length" and "No record with a mismatched CRC is ever delivered": what holds after
every DES that ends with STATUS 0 (the bytes at PAY and after it, TYPE, the cursor), and that a DES that ends with an error
leaves all of it as it was. -/
def Obligations.DesDeliversOnlyVerifiedRecords : Prop :=
  ∀ s t : State, s.params.wf = true → exec .des s = .next t →
    (t.status = 0 →
      t.crc = crc32 (bytesBe32 t.type ++ t.mem.readBytes t.pay.toNat t.len.toNat) ∧
      t.crc = t.mem.readBe32 (t.pay.toNat + t.len.toNat) ∧ FourLetters t.type ∧
      t.elen.toNat = t.len.toNat + 12 ∧ t.src.toNat = s.src.toNat + t.elen.toNat ∧ t.src.toNat ≤ t.lim.toNat) ∧
    (t.status ≠ 0 → t.type = s.type ∧ t.len = s.len ∧ t.crc = s.crc ∧ t.pay = s.pay ∧ t.elen = s.elen ∧ t.src = s.src)

/-- 43_deserialize.md section 3, "Round trip": whatever a successful SER wrote, DES from its first byte, with any LIM from the
record's end up to BUF_SIZE, parses to the same type, length, payload and CRC. From every state; the host's two register
writes and DES are host actions (log 2). -/
def Obligations.SerThenDesRoundTrip : Prop :=
  ∀ (s t : State) (lim : Word), s.params.wf = true → exec .ser s = .next t → t.status = 0 →
    s.dst.toNat + s.len.toNat + 12 ≤ lim.toNat → lim.toNat ≤ s.params.bufSize →
    ∃ u, hostRun (lineInput s.dst lim ++ lineCmd .des) t = .next u ∧
      u.status = 0 ∧ u.type = s.type ∧ u.len = s.len ∧ u.crc = t.crc ∧ u.pay.toNat = s.dst.toNat + 8 ∧
      u.mem.readBytes u.pay.toNat u.len.toNat = s.mem.readBytes s.src.toNat s.len.toNat ∧
      u.elen.toNat = s.len.toNat + 12 ∧ u.src.toNat = s.dst.toNat + s.len.toNat + 12

/-- 43_deserialize.md section 3, "Checksum sensitivity, corrected": flip one bit of the type, payload or CRC field of a record
that DES accepts, and DES from the same SRC and LIM fails: with E_TYPE if a type byte is no letter any more, with E_CRC
otherwise; flipping bit 5 of a type byte always gives E_CRC. -/
def Obligations.SingleBitFlipsAreDetected : Prop :=
  ∀ (s t : State) (a k : Nat) (b : Byte), s.params.wf = true → exec .des s = .next t → t.status = 0 → k < 8 →
    s.src.toNat + 4 ≤ a → a < s.src.toNat + t.len.toNat + 12 → b = s.mem.read a ^^^ BitVec.twoPow 8 k →
    ∃ u, exec .des { s with mem := s.mem.write a b } = .next u ∧
      (a < s.src.toNat + 8 ∧ ¬ Letter b → u.status = 1) ∧
      (s.src.toNat + 8 ≤ a ∨ Letter b → u.status = 3) ∧
      (k = 5 → u.status = 3)

/-- 42_serialize.md section 3, the sentence on a sequence of SER commands: with TYPE, LEN and SRC set before each and DST left
alone, the records stand one after another from the first DST, DST ends after the last, and nothing else in BUF changes. The
host keeps each payload out of what has been written up to the end of its own record (70_reset_and_hazards.md section 3); it
may stand where a later record goes. From every state; runs are log 2. -/
def Obligations.SerSequenceConcatenatesRecords : Prop :=
  ∀ (s : State) (jobs : List (Word × Word × Word)) (total : Nat), s.params.wf = true → s.lim.toNat ≤ s.params.bufSize →
    total = (jobs.map fun j => j.2.1.toNat + 12).sum → s.dst.toNat + total ≤ s.params.bufSize →
    (∀ k j, jobs[k]? = some j → FourLetters j.1 ∧ j.2.2.toNat + j.2.1.toNat ≤ s.lim.toNat ∧
      (j.2.1.toNat = 0 ∨ j.2.2.toNat + j.2.1.toNat ≤ s.dst.toNat ∨
        s.dst.toNat + ((jobs.take (k + 1)).map fun j => j.2.1.toNat + 12).sum ≤ j.2.2.toNat)) →
    ∃ t, hostRun (jobs.flatMap fun j => serLines j.1 j.2.1 j.2.2) s = .next t ∧
      t.dst.toNat = s.dst.toNat + total ∧
      t.mem.readBytes s.dst.toNat total =
        jobs.flatMap (fun j => wireRecord j.1 (s.mem.readBytes j.2.2.toNat j.2.1.toNat)) ∧
      ∀ a, a < s.dst.toNat ∨ s.dst.toNat + total ≤ a → t.mem.read a = s.mem.read a

/-- 43_deserialize.md section 3, "Walking a buffer": over records that stand one after another from SRC to LIM, the k-th DES
delivers the k-th record, moves SRC to its end, and SRC meets LIM exactly after the last; BUF is untouched. From every state;
runs are log 2. -/
def Obligations.WalkDeliversRecordsInOrder : Prop :=
  ∀ (s : State) (recs : List (Word × List Byte)) (n : Nat) (type : Word) (payload : List Byte), s.params.wf = true →
    s.lim.toNat ≤ s.params.bufSize → (∀ r ∈ recs, FourLetters r.1) →
    s.src.toNat + (recs.flatMap fun r => wireRecord r.1 r.2).length = s.lim.toNat →
    s.mem.readBytes s.src.toNat (s.lim.toNat - s.src.toNat) = recs.flatMap (fun r => wireRecord r.1 r.2) →
    recs[n]? = some (type, payload) →
    ∃ t, hostRun ((List.replicate (n + 1) .des).flatMap lineCmd) s = .next t ∧
      t.status = 0 ∧ t.type = type ∧ t.len.toNat = payload.length ∧
      t.mem.readBytes t.pay.toNat t.len.toNat = payload ∧ t.mem = s.mem ∧ t.lim = s.lim ∧
      t.src.toNat = s.src.toNat + ((recs.take (n + 1)).flatMap fun r => wireRecord r.1 r.2).length ∧
      (n + 1 = recs.length ↔ t.src = t.lim)

/-! ## Errors, frames and whole-machine rules -/

/-- R138: every command, and every illegal word, ends in a next state; if it ends in an error then nothing but STATUS and EINFO
differs from the state before, and EINFO is the context value of that error. -/
def Obligations.ErrorsArePrecise : Prop :=
  (∀ (i : Instr) (s : State), ∃ t, exec i s = .next t ∧
    (t.status = 0 → t.einfo = 0) ∧
    (t.status ≠ 0 → t = { s with status := t.status, einfo := t.einfo }) ∧
    (t.status = 1 → t.einfo = if i = .des then s.mem.readBe32 (s.src.toNat + 4) else s.type) ∧
    (t.status = 2 → t.einfo.toNat = s.lim.toNat - s.src.toNat) ∧
    (t.status = 3 →
      t.einfo = crc32 (s.mem.readBytes (s.src.toNat + 4) 4 ++
        s.mem.readBytes (s.src.toNat + 8) (s.mem.readBe32 s.src.toNat).toNat)) ∧
    (t.status = 8 ∨ t.status = 9 → t.einfo = 0)) ∧
  (∀ (w : Word) (r : Illegal) (s : State), decode w = .error r →
    runCommand w s = .next { s with status := 10, einfo := w })

/-- R136: the engine never writes a code other than 0, 1, 2, 3, 8, 9, 10 to STATUS; and by 60_exceptions.md section 4, no command
writes a code that is not in its own check order. -/
def Obligations.OnlyListedCodesAreWritten : Prop :=
  (∀ (i : Instr) (s t : State), exec i s = .next t → t.status ∈ resultCodes i) ∧
  (∀ (w : Word) (s t : State), runCommand w s = .next t → t.status ∈ ([0, 1, 2, 3, 8, 9, 10] : List Word))

/-- R140: a command executes the same whatever STATUS and EINFO hold; they keep their values through every host action that is
neither a command nor a reset; NOP sets both to 0 and does nothing else. -/
def Obligations.ErrorsDoNotStick : Prop :=
  (∀ (w : Word) (s : State) (st ei : Word), runCommand w { s with status := st, einfo := ei } = runCommand w s) ∧
  (∀ (a : HostAction) (s t : State), a ≠ .reset → perform a s = .done t → t.status = s.status ∧ t.einfo = s.einfo) ∧
  (∀ s : State, exec .nop s = .next { s with status := 0, einfo := 0 })

/-- 10_state.md section 2, the "w" column of the table of which command reads and which writes each register: a command leaves
every register outside its write set alone; LIM is changed by none, BUF by SER alone; STATUS and EINFO are left out of the table,
since every command writes them. That the parameters, the host's actions and the reply are changed by no command is a clause
about the model's own fields (logs 1, 2 and 3). -/
def Obligations.CommandWriteSets : Prop :=
  ∀ (i : Instr) (s t : State), exec i s = .next t →
    (∀ r ∈ operandRegs, r ∉ writeSet i → readReg r t = readReg r s) ∧
    t.lim = s.lim ∧ t.params = s.params ∧ t.actions = s.actions ∧ t.reply = s.reply ∧ (i ≠ .ser → t.mem = s.mem)

/-- 10_state.md section 2, the "r" column of the same table: what a command does is independent of every register outside its read
set. With another value there, it gives the same next state, up to that register itself where it is not written. -/
def Obligations.CommandReadSets : Prop :=
  ∀ (i : Instr) (s t : State) (r : Reg) (v : Word), exec i s = .next t → r ∈ operandRegs → r ∉ readSet i →
    exec i (State.poke r v s) = .next (if t.status = 0 ∧ r ∈ writeSet i then t else State.poke r v t)

/-- 20_memory.md section 4: no command's result depends on a byte of BUF at or above LIM. Two states that differ only in BUF, and
there only at or above LIM, give next states that agree in everything but BUF, with the same bytes written by SER. -/
def Obligations.CommandsReadOnlyBelowLim : Prop :=
  ∀ (i : Instr) (s t : State) (m : Mem), (∀ a, a < s.lim.toNat → m.read a = s.mem.read a) → exec i s = .next t →
    ∃ u, exec i { s with mem := m } = .next u ∧ { u with mem := t.mem } = t ∧
      (i ≠ .ser ∨ t.status ≠ 0 → u.mem = m) ∧
      (i = .ser → t.status = 0 →
        u.mem.readBytes s.dst.toNat (s.len.toNat + 12) = t.mem.readBytes s.dst.toNat (s.len.toNat + 12))

/-- 20_memory.md section 3: NOP, TCHK, CRCINIT, CRCFIN and CRC32 give the same state when issued twice in a row. -/
def Obligations.FiveCommandsAreIdempotent : Prop :=
  ∀ (i : Instr) (s t : State), i = .nop ∨ i = .tchk ∨ i = .crcinit ∨ i = .crcfin ∨ i = .crc32 →
    exec i s = .next t → exec i t = .next t

/-- The invariant of the engine is kept by every step from every state that has it (10_state.md sections 2, 5 and 6, 20_memory.md
section 4, 60_exceptions.md section 1; the canonical form of BUF is log 4, the parameters in State are log 1). -/
def Obligations.EveryStepKeepsTheInvariant : Prop :=
  ∀ s t : State, s.Inv → step s = .next t → t.Inv

/-- The invariant holds after reset (logs 1 and 4). -/
def Obligations.ResetHasTheInvariant : Prop :=
  State.reset.Inv

/-! ## Reset -/

/-- R34: what reset leaves in every stored register and what FLAGS then reads, in the state after power-up and from every state;
BUF is not changed by it. -/
def Obligations.ResetValues : Prop :=
  (∀ s : State, s = State.reset ∨ (∃ t, s = resetRegisters t) →
    s.type = 0x00000000 ∧ s.len = 0x00000000 ∧ s.src = 0x00000000 ∧ s.lim = 0x00000000 ∧ s.dst = 0x00000000 ∧
    s.crc = 0x00000000 ∧ s.elen = 0x00000000 ∧ s.pay = 0x00000000 ∧ s.acc = 0xFFFFFFFF ∧ s.status = 0x00000000 ∧
    s.einfo = 0x00000000 ∧ readReg .flags s = 0x00000007) ∧
  (∀ s : State, (resetRegisters s).mem = s.mem)

/-- 70_reset_and_hazards.md section 1: a reset among the host's actions resets the registers and does nothing else (logs 2, 3
and 8). -/
def Obligations.ResetActionResetsRegisters : Prop :=
  ∀ (s : State) (rest : List HostAction), s.actions = .reset :: rest →
    step s = .next { State.reset with mem := s.mem, params := s.params, actions := rest, reply := .nothing }

/-- 70_reset_and_hazards.md section 1, "Every command is legal as first command": what each leaves in STATUS and EINFO from the
reset values, for every BUF_SIZE and every contents of BUF. CRCB for every immediate, and its value in 95_test_vectors.md
V18. -/
def Obligations.FirstCommandsAfterReset : Prop :=
  ∀ s : State, s.params.wf = true → s = resetRegisters s →
    exec .nop s = .next s ∧
    exec .tchk s = .next { s with status := 1 } ∧
    exec .crcinit s = .next s ∧
    (∀ b, exec (.crcb b) s = .next { s with acc := crcStep s.acc b }) ∧
    exec (.crcb 0x61) s = .next { s with acc := 0x174841BC } ∧
    exec .crcupd s = .next s ∧
    exec .crcfin s = .next s ∧
    exec .crc32 s = .next s ∧
    (s.params.bufSize < 12 → exec .ser s = .next { s with status := 8 }) ∧
    (12 ≤ s.params.bufSize → exec .ser s = .next { s with status := 1 }) ∧
    exec .des s = .next { s with status := 2 }

/-! ## The host's accesses -/

/-- 10_state.md section 5, register reads: a word read at each of the thirteen offsets replies with that register's value, FLAGS
computed from TYPE and CMD reading 0, and changes nothing else (logs 2 and 3). -/
def Obligations.HostReadsRegisters : Prop :=
  ∀ (s : State) (rest : List HostAction) (o : Nat) (v : Word),
    (o, v) ∈ [(0x00, s.type), (0x04, s.len), (0x08, s.src), (0x0C, s.lim), (0x10, s.dst), (0x14, s.crc), (0x18, s.elen),
      (0x1C, s.pay), (0x20, s.acc), (0x24, flagsOf s.type), (0x28, s.status), (0x2C, s.einfo), (0x30, 0)] →
    s.actions = .regRead .word o :: rest →
    step s = .next { s with actions := rest, reply := .word v }

/-- 10_state.md section 5, register writes: a word write to each of the five RW registers stores the value; to each of the seven RO
registers it is ignored (logs 2 and 3). -/
def Obligations.HostWritesRegisters : Prop :=
  ∀ (s : State) (rest : List HostAction) (o : Nat) (v : Word), s.actions = .regWrite .word o v :: rest →
    (o = 0x00 → step s = .next { s with type := v, actions := rest, reply := .nothing }) ∧
    (o = 0x04 → step s = .next { s with len := v, actions := rest, reply := .nothing }) ∧
    (o = 0x08 → step s = .next { s with src := v, actions := rest, reply := .nothing }) ∧
    (o = 0x0C → step s = .next { s with lim := v, actions := rest, reply := .nothing }) ∧
    (o = 0x10 → step s = .next { s with dst := v, actions := rest, reply := .nothing }) ∧
    (o ∈ [0x14, 0x18, 0x1C, 0x20, 0x24, 0x28, 0x2C] → step s = .next { s with actions := rest, reply := .nothing })

/-- 10_state.md section 6 and 20_memory.md section 4: a byte the host writes below BUF_SIZE is the byte read back there, no other
byte and no register changes; a read replies with the byte and changes nothing; an index at or above BUF_SIZE is refused
(logs 2, 3 and 6). -/
def Obligations.HostAccessesBufBytes : Prop :=
  ∀ (s : State) (rest : List HostAction) (k : Nat) (v : Byte),
    (s.actions = .bufWrite k v :: rest →
      (k < s.params.bufSize →
        ∃ t, step s = .next t ∧ t = { s with mem := t.mem, actions := rest, reply := .nothing } ∧
          t.mem.read k = v ∧ ∀ a, a ≠ k → t.mem.read a = s.mem.read a) ∧
      (s.params.bufSize ≤ k → step s = .refused .bufIndexOutOfRange)) ∧
    (s.actions = .bufRead k :: rest →
      (k < s.params.bufSize → step s = .next { s with actions := rest, reply := .byte (s.mem.read k) }) ∧
      (s.params.bufSize ≤ k → step s = .refused .bufIndexOutOfRange))

/-- 20_memory.md section 4, the address map: a bus access in the register window is the register access at that offset, a byte
access in the BUF window the access to that byte, whichever windows legal parameters give; an address in neither is
refused (logs 1 and 7). -/
def Obligations.BusReachesTheTwoWindows : Prop :=
  ∀ (s : State) (width : Width) (v : Word) (x : Nat), s.params.wf = true →
    (x < 0x34 →
      perform (.busWrite width (s.params.regBase + x) v) s = perform (.regWrite width x v) s ∧
      perform (.busRead width (s.params.regBase + x)) s = perform (.regRead width x) s) ∧
    (x < s.params.bufSize →
      perform (.busWrite .byte (s.params.bufBase + x) v) s = perform (.bufWrite x (v.extractLsb' 0 8)) s ∧
      perform (.busRead .byte (s.params.bufBase + x)) s = perform (.bufRead x) s) ∧
    ((x < s.params.regBase ∨ s.params.regBase + 0x34 ≤ x) → (x < s.params.bufBase ∨ s.params.bufBase + s.params.bufSize ≤ x) →
      perform (.busWrite width x v) s = .refuse .unmappedBusAddress ∧
      perform (.busRead width x) s = .refuse .unmappedBusAddress)

/-- 93_implementation_defined.md Part 1: in a machine with legal parameters every host action that has a meaning is performed to
its end, whatever the state, and every other one is refused (logs 1, 2, 6 and 7). -/
def Obligations.AdmittedActionsComplete : Prop :=
  ∀ (s : State) (a : HostAction) (rest : List HostAction), s.params.wf = true → s.actions = a :: rest →
    (a.admitted s.params = true → ∃ t, step s = .next t ∧ t.actions = rest) ∧
    (a.admitted s.params = false → ∃ r, step s = .refused r)

/-! ## Values -/

/-- 41_crc.md section 1, two of the values of the checksum: the catalogue value, and the document's fixture, type "RuSt" and its
message, 2882656334 (95_test_vectors.md S1). -/
def Obligations.ChecksumValues : Prop :=
  crc32 [0x31, 0x32, 0x33, 0x34, 0x35, 0x36, 0x37, 0x38, 0x39] = 0xCBF43926 ∧
  crc32 (bytesBe32 0x52755374 ++
    [0x54, 0x68, 0x69, 0x73, 0x20, 0x69, 0x73, 0x20, 0x77, 0x68, 0x65, 0x72, 0x65, 0x20, 0x79, 0x6F, 0x75, 0x72, 0x20, 0x73, 0x65] ++
    [0x63, 0x72, 0x65, 0x74, 0x20, 0x6D, 0x65, 0x73, 0x73, 0x61, 0x67, 0x65, 0x20, 0x77, 0x69, 0x6C, 0x6C, 0x20, 0x62, 0x65, 0x21]) =
      BitVec.ofNat 32 2882656334
end

