-- ==== Sys2Proof/Laws/Codec.lean ====
section
/-! SUPPORT. The fields of a command word, and the letter and flag tests in the terms the claims use. -/

namespace Sys2Proof

/-- A command word is its three fields side by side (R57). -/
theorem word_eq_fields (w : Word) : zeroField w ++ immField w ++ opcodeField w = w := by
  unfold zeroField immField opcodeField
  apply BitVec.eq_of_getLsbD_eq
  intro k hk
  simp only [BitVec.getLsbD_append, BitVec.getLsbD_extractLsb']
  by_cases h1 : k < 8
  · simp [h1]
  · by_cases h2 : k - 8 < 8
    · simp [h1, h2]; congr 1; omega
    · simp [h1, h2, show k - 8 - 8 < 16 by omega]; congr 1; omega

/-- A format-Z opcode is the opcode of the command it decodes to, whose immediate field is 0 (R57, R58). -/
theorem decodeOpcodeZ_some {op : Byte} {i : Instr} (h : decodeOpcodeZ op = some i) : i.opcode = op ∧ i.imm = 0 := by
  unfold decodeOpcodeZ at h
  repeat' (split at h; · cases h; simp_all [Instr.opcode, Instr.imm])
  cases h

/-- Which opcodes are format-Z commands (R58). -/
theorem decodeOpcodeZ_isSome_iff (op : Byte) :
    (decodeOpcodeZ op).isSome = true ↔ op ∈ ([0x00, 0x01, 0x10, 0x12, 0x13, 0x14, 0x20, 0x21] : List Byte) := by
  revert op; decide

namespace Machine

theorem isLetter_iff (b : Byte) : isLetter b = true ↔ Letter b := by simp [isLetter, Letter]

theorem allLetters_iff (t : Word) : allLetters t = true ↔ FourLetters t := by
  simp [allLetters, isLetter_iff, FourLetters, wireByte, and_assoc]

theorem allLetters_eq_false_iff (t : Word) : allLetters t = false ↔ ¬ FourLetters t := by
  rw [← allLetters_iff]; simp

/-- Bit 5 of type byte `k` is bit `29 - 8k` of TYPE (R14, R26). -/
theorem caseBit_eq (t : Word) {k : Nat} (h : k < 4) : caseBit t k = t.getLsbD (29 - 8 * k) := by
  simp only [caseBit, wireByte, BitVec.getLsbD_extractLsb', show (5 < 8) = True by simp, decide_true, Bool.true_and]
  congr 1; omega

/-- The bits of FLAGS by place (R26). -/
theorem flagsOf_bits (t : Word) :
    (flagsOf t).getLsbD 0 = flagCritical t ∧ (flagsOf t).getLsbD 1 = flagPublic t ∧
    (flagsOf t).getLsbD 2 = flagReservedValid t ∧ (flagsOf t).getLsbD 3 = flagSafeToCopy t ∧
    (flagsOf t).getLsbD 4 = allLetters t ∧ (flagsOf t).getLsbD 5 = flagValid t := by
  unfold flagsOf
  generalize flagCritical t = a
  generalize flagPublic t = b
  generalize flagReservedValid t = c
  generalize flagSafeToCopy t = d
  generalize allLetters t = e
  generalize flagValid t = f
  revert a b c d e f
  decide

/-- FLAGS reads 0 above bit 5 (R26). -/
theorem flagsOf_high (t : Word) {k : Nat} (hk : 6 ≤ k) : (flagsOf t).getLsbD k = false := by
  unfold flagsOf
  generalize flagCritical t = a
  generalize flagPublic t = b
  generalize flagReservedValid t = c
  generalize flagSafeToCopy t = d
  generalize allLetters t = e
  generalize flagValid t = f
  by_cases h : k < 32
  · revert a b c d e f; interval_cases k <;> decide
  · exact BitVec.getLsbD_of_ge _ _ (by omega)

/-- Legal parameters: BUF_SIZE fits in a register (R5). -/
theorem bufSize_lt_of_wf {p : Params} (h : p.wf = true) : p.bufSize < 2 ^ 32 := by
  simp [Params.wf] at h; omega

/-- The host's run over two lists of actions is one run after the other. -/
theorem hostRun_append (as bs : List HostAction) (s : State) :
    hostRun (as ++ bs) s =
      match hostRun as s with
      | .next t => hostRun bs t
      | .fault r => .fault r
      | .refused r => .refused r := by
  induction as generalizing s with
  | nil => rfl
  | cons a as ih =>
    simp only [List.cons_append, hostRun]
    split <;> simp_all

end Machine

end Sys2Proof
end

