-- ==== Sys2Proof/Laws/Memory.lean ====
section
/-! SUPPORT. What the operations over BUF do: reading after writing, byte ranges, the record writes of SER, and that every
operation keeps the canonical form and the bounds. -/

namespace Sys2Proof.Machine

/-! ## One byte -/

@[simp] theorem Mem.lookup_nil (a : Nat) : Mem.lookup [] a = none := rfl

theorem Mem.lookup_write (m : Mem) (a : Nat) (v : Byte) (b : Nat) :
    (m.write a v).lookup b = if a = b then some v else m.lookup b := by
  induction m with
  | nil => simp [Mem.write, Mem.lookup]
  | cons c m ih =>
    simp only [Mem.write]
    split
    · simp [Mem.lookup]
    · split
      · rename_i h; simp only [Mem.lookup, ← h]; split <;> rfl
      · rename_i h
        simp only [Mem.lookup, ih]
        split
        · rename_i h1; simp [← h1, h]
        · rfl

/-- Reading after writing: the byte written at the index written, every other byte as before. -/
theorem Mem.read_write (m : Mem) (a : Nat) (v : Byte) (b : Nat) :
    (m.write a v).read b = if a = b then v else m.read b := by
  by_cases h : a = b <;> simp [Mem.read, Mem.lookup_write, h]

@[simp] theorem Mem.read_write_same (m : Mem) (a : Nat) (v : Byte) : (m.write a v).read a = v := by
  simp [Mem.read_write]

theorem Mem.read_write_other (m : Mem) {a b : Nat} (v : Byte) (h : a ≠ b) : (m.write a v).read b = m.read b := by
  simp [Mem.read_write, h]

/-! ## The canonical form and the bounds -/

theorem Mem.wf_cons {c : Host.Cell} {m : Mem} :
    Mem.wf (c :: m) = true ↔ (∀ d ∈ m.head?, c.1 < d.1) ∧ m.wf = true := by
  cases m <;> simp [Mem.wf]

/-- Writing a byte keeps the canonical form. -/
theorem Mem.wf_write {m : Mem} (h : m.wf = true) (a : Nat) (v : Byte) : (m.write a v).wf = true := by
  induction m with
  | nil => rfl
  | cons c m ih =>
    obtain ⟨h1, h2⟩ := Mem.wf_cons.1 h
    simp only [Mem.write]
    split
    · exact Mem.wf_cons.2 ⟨by simpa using ‹a < c.1›, h⟩
    · split
      · exact Mem.wf_cons.2 ⟨fun d hd => ‹a = c.1› ▸ h1 d hd, h2⟩
      · refine Mem.wf_cons.2 ⟨fun d hd => ?_, ih h2⟩
        cases m with
        | nil => simp [Mem.write] at hd; subst hd; simp; omega
        | cons e m =>
          have he := h1 e (by simp)
          simp only [Mem.write] at hd
          split at hd
          · simp at hd; subst hd; simp; omega
          · split at hd <;> (simp at hd; subst hd; simp; omega)

/-- Writing a byte below the bound keeps every written byte below it. -/
theorem Mem.within_write {m : Mem} {n : Nat} (h : m.within n = true) {a : Nat} (ha : a < n) (v : Byte) :
    (m.write a v).within n = true := by
  induction m with
  | nil => simp [Mem.write, Mem.within, ha]
  | cons c m ih =>
    simp only [Mem.within, List.all_cons, Bool.and_eq_true, decide_eq_true_eq] at h
    simp only [Mem.write]
    split
    · simp [Mem.within, ha, h.1, h.2]
    · split
      · simp [Mem.within, ha, h.2]
      · have := ih h.2
        simp only [Mem.within] at this
        simp [Mem.within, h.1, this]

/-- In canonical form the first entry has the lowest index: no byte below it is written. -/
theorem Mem.lookup_lt_head {c : Host.Cell} {m : Mem} (h : Mem.wf (c :: m) = true) {a : Nat} (ha : a < c.1) :
    Mem.lookup (c :: m) a = none := by
  induction m generalizing c with
  | nil => simp [Mem.lookup]; omega
  | cons d m ih =>
    obtain ⟨h1, h2⟩ := Mem.wf_cons.1 h
    have hd : c.1 < d.1 := h1 d (by simp)
    rw [Mem.lookup, if_neg (by omega)]
    exact ih h2 (by omega)

/-- Equal contents are equal data: two memories in canonical form that hold the same written bytes are the same list. -/
theorem Mem.eq_of_lookup_eq {m n : Mem} (hm : m.wf = true) (hn : n.wf = true)
    (h : ∀ a, m.lookup a = n.lookup a) : m = n := by
  induction m generalizing n with
  | nil =>
    cases n with
    | nil => rfl
    | cons c n => have := h c.1; simp [Mem.lookup] at this
  | cons c m ih =>
    cases n with
    | nil => have := h c.1; simp [Mem.lookup] at this
    | cons d n =>
      have hcd : c.1 = d.1 := by
        rcases Nat.lt_trichotomy c.1 d.1 with hl | he | hg
        · have := h c.1; rw [Mem.lookup_lt_head hn hl] at this; simp [Mem.lookup] at this
        · exact he
        · have := h d.1; rw [Mem.lookup_lt_head hm hg] at this; simp [Mem.lookup] at this
      have hv : c.2 = d.2 := by have := h c.1; simpa [Mem.lookup, hcd] using this
      have hc : c = d := Prod.ext hcd hv
      subst hc
      congr 1
      refine ih (Mem.wf_cons.1 hm).2 (Mem.wf_cons.1 hn).2 fun a => ?_
      by_cases ha : c.1 = a
      · subst ha
        have low : ∀ (k : Mem), Mem.wf (c :: k) = true → k.lookup c.1 = none := by
          intro k hk
          cases k with
          | nil => rfl
          | cons e k => exact Mem.lookup_lt_head (Mem.wf_cons.1 hk).2 ((Mem.wf_cons.1 hk).1 e (by simp))
        rw [low m hm, low n hn]
      · have := h a; simpa [Mem.lookup, ha] using this

/-! ## Byte ranges (R11) -/

@[simp] theorem Mem.readBytes_zero (m : Mem) (a : Nat) : m.readBytes a 0 = [] := rfl

theorem Mem.readBytes_succ (m : Mem) (a n : Nat) : m.readBytes a (n + 1) = m.read a :: m.readBytes (a + 1) n := rfl

@[simp] theorem Mem.length_readBytes (m : Mem) (a n : Nat) : (m.readBytes a n).length = n := by
  induction n generalizing a with
  | zero => rfl
  | succ n ih => simp [Mem.readBytes_succ, ih]

theorem Mem.getElem_readBytes (m : Mem) (a n i : Nat) (h : i < (m.readBytes a n).length) :
    (m.readBytes a n)[i] = m.read (a + i) := by
  induction n generalizing a i with
  | zero => simp at h
  | succ n ih =>
    cases i with
    | zero => rfl
    | succ i =>
      have h' : i < (m.readBytes (a + 1) n).length := by simpa using h
      simpa [Mem.readBytes_succ, Nat.add_assoc, Nat.add_comm 1 i] using ih (a + 1) i h'

/-- A range splits at any point. -/
theorem Mem.readBytes_add (m : Mem) (a n k : Nat) :
    m.readBytes a (n + k) = m.readBytes a n ++ m.readBytes (a + n) k := by
  induction n generalizing a with
  | zero => simp
  | succ n ih => simp only [Nat.succ_add, Mem.readBytes_succ, List.cons_append, ih]; congr 3

/-- A range depends on its own bytes alone. -/
theorem Mem.readBytes_congr {m k : Mem} {a n : Nat} (h : ∀ x, a ≤ x → x < a + n → m.read x = k.read x) :
    m.readBytes a n = k.readBytes a n := by
  induction n generalizing a with
  | zero => rfl
  | succ n ih =>
    rw [Mem.readBytes_succ, Mem.readBytes_succ, h a (by omega) (by omega), ih fun x h1 h2 => h x (by omega) (by omega)]

@[simp] theorem Mem.writeBytes_nil (m : Mem) (a : Nat) : m.writeBytes a [] = m := rfl

theorem Mem.writeBytes_cons (m : Mem) (a : Nat) (b : Byte) (bs : List Byte) :
    m.writeBytes a (b :: bs) = (m.write a b).writeBytes (a + 1) bs := rfl

theorem Mem.writeBytes_append (m : Mem) (a : Nat) (bs cs : List Byte) :
    m.writeBytes a (bs ++ cs) = (m.writeBytes a bs).writeBytes (a + bs.length) cs := by
  induction bs generalizing m a with
  | nil => simp
  | cons b bs ih => simp only [List.cons_append, Mem.writeBytes_cons, ih, List.length_cons]; congr 1; omega

/-- A range write leaves every byte outside the range as it was. -/
theorem Mem.read_writeBytes_outside (m : Mem) {a x : Nat} (bs : List Byte) (h : x < a ∨ a + bs.length ≤ x) :
    (m.writeBytes a bs).read x = m.read x := by
  induction bs generalizing m a with
  | nil => rfl
  | cons b bs ih =>
    simp only [List.length_cons] at h
    rw [Mem.writeBytes_cons, ih _ (by omega), Mem.read_write_other _ _ (by omega)]

/-- Reading back a range just written gives the bytes written. -/
theorem Mem.readBytes_writeBytes (m : Mem) (a : Nat) (bs : List Byte) :
    (m.writeBytes a bs).readBytes a bs.length = bs := by
  induction bs generalizing m a with
  | nil => rfl
  | cons b bs ih =>
    rw [Mem.writeBytes_cons, List.length_cons, Mem.readBytes_succ, ih,
      Mem.read_writeBytes_outside _ _ (by omega), Mem.read_write_same]

theorem Mem.wf_writeBytes {m : Mem} (h : m.wf = true) (a : Nat) (bs : List Byte) : (m.writeBytes a bs).wf = true := by
  induction bs generalizing m a with
  | nil => exact h
  | cons b bs ih => exact ih (Mem.wf_write h a b) (a + 1)

theorem Mem.within_writeBytes {m : Mem} {n : Nat} (h : m.within n = true) {a : Nat} (bs : List Byte)
    (hb : a + bs.length ≤ n) : (m.writeBytes a bs).within n = true := by
  induction bs generalizing m a with
  | nil => exact h
  | cons b bs ih =>
    simp only [List.length_cons] at hb
    exact ih (Mem.within_write h (by omega) b) (by omega)

/-! ## Words on the wire (R40) -/

@[simp] theorem length_bytesBe32 (v : Word) : (bytesBe32 v).length = 4 := rfl

/-- The four bytes of a big-endian read are the range of four bytes. -/
theorem Mem.readBytes_four (m : Mem) (a : Nat) :
    m.readBytes a 4 = [m.read a, m.read (a + 1), m.read (a + 2), m.read (a + 3)] := rfl

/-- A big-endian read depends on its four bytes alone. -/
theorem Mem.readBe32_congr {m k : Mem} {a : Nat} (h : ∀ x, a ≤ x → x < a + 4 → m.read x = k.read x) :
    m.readBe32 a = k.readBe32 a := by
  simp only [Mem.readBe32, h a (by omega) (by omega), h (a + 1) (by omega) (by omega), h (a + 2) (by omega) (by omega),
    h (a + 3) (by omega) (by omega)]

/-! ## The record writes of SER (R93, R95) -/

/-- The four writes are one write of the record's bytes in order. -/
theorem Mem.writeRecord_eq (m : Mem) (d : Nat) (len type : Word) (payload : List Byte) (crc : Word)
    (h : payload.length = len.toNat) :
    m.writeRecord d len type payload crc =
      m.writeBytes d (bytesBe32 len ++ bytesBe32 type ++ payload ++ bytesBe32 crc) := by
  simp only [Mem.writeRecord, Mem.writeBytes_append, List.length_append, length_bytesBe32, h]
  rw [show d + (4 + 4) = d + 8 from rfl, show d + (4 + 4 + len.toNat) = d + 8 + len.toNat by omega]

/-- SER's writes leave the bytes outside the record alone. -/
theorem Mem.read_writeRecord_outside (m : Mem) {d x : Nat} {len : Word} (type : Word) {payload : List Byte} (crc : Word)
    (h : payload.length = len.toNat) (hx : x < d ∨ d + encodedLength len.toNat ≤ x) :
    (m.writeRecord d len type payload crc).read x = m.read x := by
  rw [Mem.writeRecord_eq _ _ _ _ _ _ h]
  refine Mem.read_writeBytes_outside _ _ ?_
  simp only [List.length_append, length_bytesBe32, h]
  simp only [encodedLength] at hx
  omega

theorem Mem.wf_writeRecord {m : Mem} (h : m.wf = true) (d : Nat) (len type : Word) (payload : List Byte) (crc : Word) :
    (m.writeRecord d len type payload crc).wf = true :=
  Mem.wf_writeBytes (Mem.wf_writeBytes (Mem.wf_writeBytes (Mem.wf_writeBytes h _ _) _ _) _ _) _ _

theorem Mem.within_writeRecord {m : Mem} {n : Nat} (h : m.within n = true) {d : Nat} {len : Word} (type : Word)
    {payload : List Byte} (crc : Word) (hp : payload.length = len.toNat) (hd : d + encodedLength len.toNat ≤ n) :
    (m.writeRecord d len type payload crc).within n = true := by
  rw [Mem.writeRecord_eq _ _ _ _ _ _ hp]
  refine Mem.within_writeBytes h _ ?_
  simp only [List.length_append, length_bytesBe32, hp]
  simp only [encodedLength] at hd
  omega

@[simp] theorem State.length_sourceBytes (s : State) : s.sourceBytes.length = s.len.toNat :=
  Mem.length_readBytes _ _ _

end Sys2Proof.Machine
end

