-- ==== Sys2Proof/Laws/State.lean ====
section
/-! SUPPORT. One lemma per field and per update of State: what a later proof uses in place of unfolding an update. -/

namespace Sys2Proof.Machine

/-! ## report: STATUS and EINFO (R138) -/

@[simp] theorem report_type (code info : Word) (s : State) : (report code info s).type = s.type := rfl
@[simp] theorem report_len (code info : Word) (s : State) : (report code info s).len = s.len := rfl
@[simp] theorem report_src (code info : Word) (s : State) : (report code info s).src = s.src := rfl
@[simp] theorem report_lim (code info : Word) (s : State) : (report code info s).lim = s.lim := rfl
@[simp] theorem report_dst (code info : Word) (s : State) : (report code info s).dst = s.dst := rfl
@[simp] theorem report_crc (code info : Word) (s : State) : (report code info s).crc = s.crc := rfl
@[simp] theorem report_elen (code info : Word) (s : State) : (report code info s).elen = s.elen := rfl
@[simp] theorem report_pay (code info : Word) (s : State) : (report code info s).pay = s.pay := rfl
@[simp] theorem report_acc (code info : Word) (s : State) : (report code info s).acc = s.acc := rfl
@[simp] theorem report_status (code info : Word) (s : State) : (report code info s).status = code := rfl
@[simp] theorem report_einfo (code info : Word) (s : State) : (report code info s).einfo = info := rfl
@[simp] theorem report_mem (code info : Word) (s : State) : (report code info s).mem = s.mem := rfl
@[simp] theorem report_params (code info : Word) (s : State) : (report code info s).params = s.params := rfl
@[simp] theorem report_actions (code info : Word) (s : State) : (report code info s).actions = s.actions := rfl
@[simp] theorem report_reply (code info : Word) (s : State) : (report code info s).reply = s.reply := rfl

/-! ## raise: the error outcome (R138) -/

@[simp] theorem raise_type (e : Err) (info : Word) (s : State) : (raise e info s).type = s.type := rfl
@[simp] theorem raise_len (e : Err) (info : Word) (s : State) : (raise e info s).len = s.len := rfl
@[simp] theorem raise_src (e : Err) (info : Word) (s : State) : (raise e info s).src = s.src := rfl
@[simp] theorem raise_lim (e : Err) (info : Word) (s : State) : (raise e info s).lim = s.lim := rfl
@[simp] theorem raise_dst (e : Err) (info : Word) (s : State) : (raise e info s).dst = s.dst := rfl
@[simp] theorem raise_crc (e : Err) (info : Word) (s : State) : (raise e info s).crc = s.crc := rfl
@[simp] theorem raise_elen (e : Err) (info : Word) (s : State) : (raise e info s).elen = s.elen := rfl
@[simp] theorem raise_pay (e : Err) (info : Word) (s : State) : (raise e info s).pay = s.pay := rfl
@[simp] theorem raise_acc (e : Err) (info : Word) (s : State) : (raise e info s).acc = s.acc := rfl
@[simp] theorem raise_status (e : Err) (info : Word) (s : State) : (raise e info s).status = e.code := rfl
@[simp] theorem raise_einfo (e : Err) (info : Word) (s : State) : (raise e info s).einfo = info := rfl
@[simp] theorem raise_mem (e : Err) (info : Word) (s : State) : (raise e info s).mem = s.mem := rfl
@[simp] theorem raise_params (e : Err) (info : Word) (s : State) : (raise e info s).params = s.params := rfl
@[simp] theorem raise_actions (e : Err) (info : Word) (s : State) : (raise e info s).actions = s.actions := rfl
@[simp] theorem raise_reply (e : Err) (info : Word) (s : State) : (raise e info s).reply = s.reply := rfl

/-! ## succeed: the success outcome (R8) -/

@[simp] theorem succeed_type (s : State) : (succeed s).type = s.type := rfl
@[simp] theorem succeed_len (s : State) : (succeed s).len = s.len := rfl
@[simp] theorem succeed_src (s : State) : (succeed s).src = s.src := rfl
@[simp] theorem succeed_lim (s : State) : (succeed s).lim = s.lim := rfl
@[simp] theorem succeed_dst (s : State) : (succeed s).dst = s.dst := rfl
@[simp] theorem succeed_crc (s : State) : (succeed s).crc = s.crc := rfl
@[simp] theorem succeed_elen (s : State) : (succeed s).elen = s.elen := rfl
@[simp] theorem succeed_pay (s : State) : (succeed s).pay = s.pay := rfl
@[simp] theorem succeed_acc (s : State) : (succeed s).acc = s.acc := rfl
@[simp] theorem succeed_status (s : State) : (succeed s).status = 0 := rfl
@[simp] theorem succeed_einfo (s : State) : (succeed s).einfo = 0 := rfl
@[simp] theorem succeed_mem (s : State) : (succeed s).mem = s.mem := rfl
@[simp] theorem succeed_params (s : State) : (succeed s).params = s.params := rfl
@[simp] theorem succeed_actions (s : State) : (succeed s).actions = s.actions := rfl
@[simp] theorem succeed_reply (s : State) : (succeed s).reply = s.reply := rfl

/-! ## answer: the reply (R109) -/

@[simp] theorem answer_type (r : Reply) (s : State) : (answer r s).type = s.type := rfl
@[simp] theorem answer_len (r : Reply) (s : State) : (answer r s).len = s.len := rfl
@[simp] theorem answer_src (r : Reply) (s : State) : (answer r s).src = s.src := rfl
@[simp] theorem answer_lim (r : Reply) (s : State) : (answer r s).lim = s.lim := rfl
@[simp] theorem answer_dst (r : Reply) (s : State) : (answer r s).dst = s.dst := rfl
@[simp] theorem answer_crc (r : Reply) (s : State) : (answer r s).crc = s.crc := rfl
@[simp] theorem answer_elen (r : Reply) (s : State) : (answer r s).elen = s.elen := rfl
@[simp] theorem answer_pay (r : Reply) (s : State) : (answer r s).pay = s.pay := rfl
@[simp] theorem answer_acc (r : Reply) (s : State) : (answer r s).acc = s.acc := rfl
@[simp] theorem answer_status (r : Reply) (s : State) : (answer r s).status = s.status := rfl
@[simp] theorem answer_einfo (r : Reply) (s : State) : (answer r s).einfo = s.einfo := rfl
@[simp] theorem answer_mem (r : Reply) (s : State) : (answer r s).mem = s.mem := rfl
@[simp] theorem answer_params (r : Reply) (s : State) : (answer r s).params = s.params := rfl
@[simp] theorem answer_actions (r : Reply) (s : State) : (answer r s).actions = s.actions := rfl
@[simp] theorem answer_reply (r : Reply) (s : State) : (answer r s).reply = r := rfl

/-! ## resetRegisters: the reset event (R34, R144) -/

@[simp] theorem resetRegisters_type (s : State) : (resetRegisters s).type = 0 := rfl
@[simp] theorem resetRegisters_len (s : State) : (resetRegisters s).len = 0 := rfl
@[simp] theorem resetRegisters_src (s : State) : (resetRegisters s).src = 0 := rfl
@[simp] theorem resetRegisters_lim (s : State) : (resetRegisters s).lim = 0 := rfl
@[simp] theorem resetRegisters_dst (s : State) : (resetRegisters s).dst = 0 := rfl
@[simp] theorem resetRegisters_crc (s : State) : (resetRegisters s).crc = 0 := rfl
@[simp] theorem resetRegisters_elen (s : State) : (resetRegisters s).elen = 0 := rfl
@[simp] theorem resetRegisters_pay (s : State) : (resetRegisters s).pay = 0 := rfl
@[simp] theorem resetRegisters_acc (s : State) : (resetRegisters s).acc = 0xFFFFFFFF := rfl
@[simp] theorem resetRegisters_status (s : State) : (resetRegisters s).status = 0 := rfl
@[simp] theorem resetRegisters_einfo (s : State) : (resetRegisters s).einfo = 0 := rfl
@[simp] theorem resetRegisters_mem (s : State) : (resetRegisters s).mem = s.mem := rfl
@[simp] theorem resetRegisters_params (s : State) : (resetRegisters s).params = s.params := rfl
@[simp] theorem resetRegisters_actions (s : State) : (resetRegisters s).actions = s.actions := rfl
@[simp] theorem resetRegisters_reply (s : State) : (resetRegisters s).reply = s.reply := rfl

/-! ## writeReg: the fields that no host register write reaches (R30) -/

@[simp] theorem writeReg_crc (r : Reg) (v : Word) (s : State) : (writeReg r v s).crc = s.crc := by cases r <;> rfl
@[simp] theorem writeReg_elen (r : Reg) (v : Word) (s : State) : (writeReg r v s).elen = s.elen := by cases r <;> rfl
@[simp] theorem writeReg_pay (r : Reg) (v : Word) (s : State) : (writeReg r v s).pay = s.pay := by cases r <;> rfl
@[simp] theorem writeReg_acc (r : Reg) (v : Word) (s : State) : (writeReg r v s).acc = s.acc := by cases r <;> rfl
@[simp] theorem writeReg_status (r : Reg) (v : Word) (s : State) : (writeReg r v s).status = s.status := by cases r <;> rfl
@[simp] theorem writeReg_einfo (r : Reg) (v : Word) (s : State) : (writeReg r v s).einfo = s.einfo := by cases r <;> rfl
@[simp] theorem writeReg_mem (r : Reg) (v : Word) (s : State) : (writeReg r v s).mem = s.mem := by cases r <;> rfl
@[simp] theorem writeReg_params (r : Reg) (v : Word) (s : State) : (writeReg r v s).params = s.params := by cases r <;> rfl
@[simp] theorem writeReg_actions (r : Reg) (v : Word) (s : State) : (writeReg r v s).actions = s.actions := by cases r <;> rfl
@[simp] theorem writeReg_reply (r : Reg) (v : Word) (s : State) : (writeReg r v s).reply = s.reply := by cases r <;> rfl

/-! ## Registers read after a host write (R30) -/

/-- A register that the host may write reads back the value written. -/
theorem readReg_writeReg_same {r : Reg} (h : r ∈ [Reg.type, .len, .src, .lim, .dst]) (v : Word) (s : State) :
    readReg r (writeReg r v s) = v := by
  cases r <;> simp_all [readReg, writeReg]

/-- A write to a read-only register is ignored. -/
theorem writeReg_readOnly {r : Reg} (h : r ∈ [Reg.crc, .elen, .pay, .acc, .flags, .status, .einfo]) (v : Word) (s : State) :
    writeReg r v s = s := by
  cases r <;> simp_all [writeReg]

/-- A register write leaves every other stored register alone; FLAGS follows TYPE. -/
theorem readReg_writeReg_other {r q : Reg} (h : q ≠ r) (hf : q = .flags → r ≠ .type) (v : Word) (s : State) :
    readReg q (writeReg r v s) = readReg q s := by
  cases r <;> cases q <;> simp_all [readReg, writeReg]

/-! ## Taking the host's next action (R7) -/

theorem nextAction_nil {s : State} (h : s.actions = []) : nextAction s = none := by simp [nextAction, h]

theorem nextAction_cons {s : State} {a : HostAction} {rest : List HostAction} (h : s.actions = a :: rest) :
    nextAction s = some (a, { s with actions := rest, reply := .nothing }) := by simp [nextAction, h]

/-! ## Offsets (R13) -/

/-- The offset of a register names that register. -/
theorem ofOffset_offset (r : Reg) : Reg.ofOffset r.offset = some r := by cases r <;> decide

/-- An offset names a register only if it is that register's. -/
theorem offset_of_ofOffset {o : Nat} {r : Reg} (h : Reg.ofOffset o = some r) : r.offset = o := by
  simpa using List.find?_some h

/-- An offset names a register exactly when R13 lists it. -/
theorem ofOffset_isSome_iff {o : Nat} : (Reg.ofOffset o).isSome ↔ o ∈ allRegs.map Reg.offset := by
  simp only [Reg.ofOffset, List.find?_isSome, List.mem_map, beq_iff_eq]

end Sys2Proof.Machine
end

