-- ==== Sys2Proof/Laws/Exec.lean ====
section
/-! SUPPORT. Everything a command and a step can do, said once: a later proof takes these cases in place of unfolding the
command, the access or the step. -/

namespace Sys2Proof.Machine

/-! ## Commands -/

/-- TCHK either finds four letters or raises E_TYPE (R72). -/
theorem execTchk_cases (s : State) :
    (allLetters s.type = true ∧ execTchk s = .next (succeed s)) ∨
    (allLetters s.type = false ∧ execTchk s = .next (raise .type s.type s)) := by
  cases h : allLetters s.type <;> simp [execTchk, h]

/-- CRCUPD either folds the source range into ACC or raises E_BOUNDS (R87). -/
theorem execCrcupd_cases (s : State) :
    (s.SourceInBounds ∧ execCrcupd s = .next (succeed { s with acc := crcFold s.acc s.sourceBytes })) ∨
    (¬ s.SourceInBounds ∧ execCrcupd s = .next (raise .bounds 0 s)) := by
  by_cases h : s.SourceInBounds
  · exact .inl ⟨h, by rw [execCrcupd, if_pos h]⟩
  · exact .inr ⟨h, by rw [execCrcupd, if_neg h]⟩

/-- CRC32 either writes the checksum of the source range to CRC or raises E_BOUNDS (R89). -/
theorem execCrc32_cases (s : State) :
    (s.SourceInBounds ∧ execCrc32 s = .next (succeed { s with crc := crc32 s.sourceBytes })) ∨
    (¬ s.SourceInBounds ∧ execCrc32 s = .next (raise .bounds 0 s)) := by
  by_cases h : s.SourceInBounds
  · exact .inl ⟨h, by rw [execCrc32, if_pos h]⟩
  · exact .inr ⟨h, by rw [execCrc32, if_neg h]⟩

/-- SER: the first failing check in the order of R95, or the record written. -/
theorem execSer_cases (s : State) :
    ((¬ s.SourceInBounds ∨ s.params.bufSize < s.dst.toNat + encodedLength s.len.toNat) ∧
      execSer s = .next (raise .bounds 0 s)) ∨
    (s.SourceInBounds ∧ s.dst.toNat + encodedLength s.len.toNat ≤ s.params.bufSize ∧ allLetters s.type = false ∧
      execSer s = .next (raise .type s.type s)) ∨
    (s.SourceInBounds ∧ s.dst.toNat + encodedLength s.len.toNat ≤ s.params.bufSize ∧ allLetters s.type = true ∧
      s.SerOverlap ∧ execSer s = .next (raise .overlap 0 s)) ∨
    (s.SourceInBounds ∧ s.dst.toNat + encodedLength s.len.toNat ≤ s.params.bufSize ∧ allLetters s.type = true ∧
      ¬ s.SerOverlap ∧ execSer s = .next (serCommit s)) := by
  by_cases h1 : s.SourceInBounds
  · by_cases h2 : s.dst.toNat + encodedLength s.len.toNat > s.params.bufSize
    · exact .inl ⟨.inr h2, by rw [execSer, if_neg (not_not.2 h1), if_pos h2]⟩
    · cases h3 : allLetters s.type
      · exact .inr (.inl ⟨h1, by omega, rfl, by rw [execSer, if_neg (not_not.2 h1), if_neg h2, if_pos (by simp [h3])]⟩)
      · by_cases h4 : s.SerOverlap
        · exact .inr (.inr (.inl ⟨h1, by omega, rfl, h4, by
            rw [execSer, if_neg (not_not.2 h1), if_neg h2, if_neg (by simp [h3]), if_pos h4]⟩))
        · exact .inr (.inr (.inr ⟨h1, by omega, rfl, h4, by
            rw [execSer, if_neg (not_not.2 h1), if_neg h2, if_neg (by simp [h3]), if_neg h4]⟩))
  · exact .inl ⟨.inl h1, by rw [execSer, if_pos h1]⟩

/-- DES: the first failing check in the order of R100, or the record parsed. -/
theorem execDes_cases (s : State) :
    ((s.params.bufSize < s.lim.toNat ∨ s.lim.toNat < s.src.toNat) ∧ execDes s = .next (raise .bounds 0 s)) ∨
    (s.lim.toNat ≤ s.params.bufSize ∧ s.src.toNat ≤ s.lim.toNat ∧
      (s.avail < 4 ∨ s.avail < encodedLength s.wireLength) ∧
      execDes s = .next (raise .trunc (BitVec.ofNat 32 s.avail) s)) ∨
    (s.lim.toNat ≤ s.params.bufSize ∧ s.src.toNat ≤ s.lim.toNat ∧ encodedLength s.wireLength ≤ s.avail ∧
      allLetters s.wireType = false ∧ execDes s = .next (raise .type s.wireType s)) ∨
    (s.lim.toNat ≤ s.params.bufSize ∧ s.src.toNat ≤ s.lim.toNat ∧ encodedLength s.wireLength ≤ s.avail ∧
      allLetters s.wireType = true ∧ s.recomputedCrc ≠ s.wireCrc ∧
      execDes s = .next (raise .crc s.recomputedCrc s)) ∨
    (s.lim.toNat ≤ s.params.bufSize ∧ s.src.toNat ≤ s.lim.toNat ∧ encodedLength s.wireLength ≤ s.avail ∧
      allLetters s.wireType = true ∧ s.recomputedCrc = s.wireCrc ∧ execDes s = .next (desCommit s)) := by
  by_cases h1 : s.lim.toNat > s.params.bufSize
  · exact .inl ⟨.inl h1, by rw [execDes, if_pos h1]⟩
  by_cases h2 : s.src.toNat > s.lim.toNat
  · exact .inl ⟨.inr h2, by rw [execDes, if_neg h1, if_pos h2]⟩
  by_cases h3 : s.avail < 4
  · exact .inr (.inl ⟨by omega, by omega, .inl h3, by rw [execDes, if_neg h1, if_neg h2, if_pos h3]⟩)
  by_cases h4 : s.avail < encodedLength s.wireLength
  · exact .inr (.inl ⟨by omega, by omega, .inr h4, by rw [execDes, if_neg h1, if_neg h2, if_neg h3, if_pos h4]⟩)
  cases h5 : allLetters s.wireType
  · exact .inr (.inr (.inl ⟨by omega, by omega, by omega, rfl, by
      rw [execDes, if_neg h1, if_neg h2, if_neg h3, if_neg h4, if_pos (by simp [h5])]⟩))
  by_cases h6 : s.recomputedCrc ≠ s.wireCrc
  · exact .inr (.inr (.inr (.inl ⟨by omega, by omega, by omega, rfl, h6, by
      rw [execDes, if_neg h1, if_neg h2, if_neg h3, if_neg h4, if_neg (by simp [h5]), if_pos h6]⟩)))
  · exact .inr (.inr (.inr (.inr ⟨by omega, by omega, by omega, rfl, not_not.1 h6, by
      rw [execDes, if_neg h1, if_neg h2, if_neg h3, if_neg h4, if_neg (by simp [h5]), if_neg h6]⟩)))

/-- SER is a function of TYPE, LEN, SRC, LIM, DST, BUF and BUF_SIZE: two states that agree on them pass or fail the same checks. -/
theorem execSer_congr {s u : State} (h1 : u.type = s.type) (h2 : u.len = s.len) (h3 : u.src = s.src) (h4 : u.lim = s.lim)
    (h5 : u.dst = s.dst) (h6 : u.params = s.params) :
    (execSer s = .next (serCommit s) ∧ execSer u = .next (serCommit u)) ∨
    (∃ e info, execSer s = .next (raise e info s) ∧ execSer u = .next (raise e info u)) := by
  simp only [execSer, State.SourceInBounds, State.SerOverlap, h1, h2, h3, h4, h5, h6]
  repeat' (split; · exact .inr ⟨_, _, rfl, rfl⟩)
  exact .inl ⟨rfl, rfl⟩

/-- DES is a function of SRC, LIM, BUF and BUF_SIZE: two states that agree on them pass or fail the same checks. -/
theorem execDes_congr {s u : State} (h1 : u.src = s.src) (h2 : u.lim = s.lim) (h3 : u.mem = s.mem)
    (h4 : u.params = s.params) :
    (execDes s = .next (desCommit s) ∧ execDes u = .next (desCommit u)) ∨
    (∃ e info, execDes s = .next (raise e info s) ∧ execDes u = .next (raise e info u)) := by
  have e1 : u.avail = s.avail := by simp only [State.avail, h1, h2]
  have e2 : u.wireLength = s.wireLength := by simp only [State.wireLength, h1, h3]
  have e3 : u.wireType = s.wireType := by simp only [State.wireType, h1, h3]
  have e4 : u.wireCrc = s.wireCrc := by simp only [State.wireCrc, e2, h1, h3]
  have e5 : u.recomputedCrc = s.recomputedCrc := by simp only [State.recomputedCrc, e2, h1, h3]
  rcases execDes_cases s with ⟨g, h⟩ | ⟨g1, g2, g3, h⟩ | ⟨g1, g2, g3, g4, h⟩ | ⟨g1, g2, g3, g4, g5, h⟩ | ⟨g1, g2, g3, g4, g5, h⟩ <;>
    rcases execDes_cases u with ⟨k, h'⟩ | ⟨k1, k2, k3, h'⟩ | ⟨k1, k2, k3, k4, h'⟩ | ⟨k1, k2, k3, k4, k5, h'⟩ | ⟨k1, k2, k3, k4, k5, h'⟩ <;>
    simp only [e1, e2, e3, e4, e5, h1, h2, h4] at *
  all_goals first
    | exact .inl ⟨h, h'⟩
    | exact .inr ⟨_, _, h, h'⟩
    | (exfalso; simp only [encodedLength] at *; omega)
    | simp_all

/-! ## Accesses and steps -/

/-- An access names a register only if it is a word at that register's offset (R30). -/
theorem accessedReg_ok {width : Width} {o : Nat} {r : Reg} (h : accessedReg width o = .ok r) :
    width = .word ∧ o = r.offset := by
  unfold accessedReg at h
  split at h
  · cases h
  · split at h
    · cases h
    · split at h
      · rename_i hw _ _ q hq
        cases h
        exact ⟨not_not.1 hw, (offset_of_ofOffset hq).symm⟩
      · cases h

/-- A word access at a register's offset names that register (R30). -/
theorem accessedReg_offset (r : Reg) : accessedReg .word r.offset = .ok r := by cases r <;> decide

/-- A register write stores, is ignored, or hands the engine a command word; or it is refused (R30). -/
theorem performRegWrite_cases (width : Width) (o : Nat) (v : Word) (s : State) :
    (performRegWrite width o v s = .command v s) ∨
    (∃ r, r ≠ .cmd ∧ performRegWrite width o v s = .done (writeReg r v s)) ∨
    (∃ q, performRegWrite width o v s = .refuse q) := by
  unfold performRegWrite
  split
  · exact .inr (.inr ⟨_, rfl⟩)
  · split
    · exact .inl rfl
    · exact .inr (.inl ⟨_, ‹_›, rfl⟩)

/-- A register read gives a reply and changes nothing else; or it is refused (R30). -/
theorem performRegRead_cases (width : Width) (o : Nat) (s : State) :
    (∃ p, performRegRead width o s = .done (answer p s)) ∨ (∃ q, performRegRead width o s = .refuse q) := by
  unfold performRegRead
  split
  · exact .inr ⟨_, rfl⟩
  · exact .inl ⟨_, rfl⟩

/-- A BUF write stores one byte below BUF_SIZE; or it is refused (R48). -/
theorem performBufWrite_cases (i : Nat) (v : Byte) (s : State) :
    (i < s.params.bufSize ∧ performBufWrite i v s = .done { s with mem := s.mem.write i v }) ∨
    (∃ q, performBufWrite i v s = .refuse q) := by
  unfold performBufWrite
  split
  · exact .inl ⟨‹_›, rfl⟩
  · exact .inr ⟨_, rfl⟩

/-- A BUF read gives a reply and changes nothing else; or it is refused (R48). -/
theorem performBufRead_cases (i : Nat) (s : State) :
    (∃ p, performBufRead i s = .done (answer p s)) ∨ (∃ q, performBufRead i s = .refuse q) := by
  unfold performBufRead
  split
  · exact .inl ⟨_, rfl⟩
  · exact .inr ⟨_, rfl⟩

/-- Everything one host action can come to (R109, R144). -/
theorem perform_cases (a : HostAction) (s : State) :
    (∃ w, perform a s = .command w s) ∨
    (∃ r v, r ≠ .cmd ∧ perform a s = .done (writeReg r v s)) ∨
    (∃ i v, i < s.params.bufSize ∧ perform a s = .done { s with mem := s.mem.write i v }) ∨
    (∃ p, perform a s = .done (answer p s)) ∨
    (perform a s = .done (resetRegisters s)) ∨
    (∃ q, perform a s = .refuse q) := by
  have regW : ∀ width o v, (∃ w, performRegWrite width o v s = .command w s) ∨
      (∃ r v', r ≠ .cmd ∧ performRegWrite width o v s = .done (writeReg r v' s)) ∨
      (∃ q, performRegWrite width o v s = .refuse q) := by
    intro width o v
    rcases performRegWrite_cases width o v s with h | ⟨r, h0, h⟩ | ⟨q, h⟩
    · exact .inl ⟨_, h⟩
    · exact .inr (.inl ⟨_, _, h0, h⟩)
    · exact .inr (.inr ⟨_, h⟩)
  cases a with
  | regWrite width o v =>
    rcases regW width o v with h | h | h
    · exact .inl h
    · exact .inr (.inl h)
    · exact .inr (.inr (.inr (.inr (.inr h))))
  | regRead width o =>
    rcases performRegRead_cases width o s with h | h
    · exact .inr (.inr (.inr (.inl h)))
    · exact .inr (.inr (.inr (.inr (.inr h))))
  | bufWrite i v =>
    rcases performBufWrite_cases i v s with ⟨h0, h⟩ | h
    · exact .inr (.inr (.inl ⟨i, v, h0, h⟩))
    · exact .inr (.inr (.inr (.inr (.inr h))))
  | bufRead i =>
    rcases performBufRead_cases i s with h | h
    · exact .inr (.inr (.inr (.inl h)))
    · exact .inr (.inr (.inr (.inr (.inr h))))
  | busWrite width addr v =>
    simp only [perform, performBusWrite]
    split
    · rcases regW width (addr - s.params.regBase) v with h | h | h
      · exact .inl h
      · exact .inr (.inl h)
      · exact .inr (.inr (.inr (.inr (.inr h))))
    · split
      · split
        · rcases performBufWrite_cases (addr - s.params.bufBase) (v.extractLsb' 0 8) s with ⟨h0, h⟩ | h
          · exact .inr (.inr (.inl ⟨_, _, h0, h⟩))
          · exact .inr (.inr (.inr (.inr (.inr h))))
        · exact .inr (.inr (.inr (.inr (.inr ⟨_, rfl⟩))))
      · exact .inr (.inr (.inr (.inr (.inr ⟨_, rfl⟩))))
  | busRead width addr =>
    simp only [perform, performBusRead]
    split
    · rcases performRegRead_cases width (addr - s.params.regBase) s with h | h
      · exact .inr (.inr (.inr (.inl h)))
      · exact .inr (.inr (.inr (.inr (.inr h))))
    · split
      · split
        · rcases performBufRead_cases (addr - s.params.bufBase) s with h | h
          · exact .inr (.inr (.inr (.inl h)))
          · exact .inr (.inr (.inr (.inr (.inr h))))
        · exact .inr (.inr (.inr (.inr (.inr ⟨_, rfl⟩))))
      · exact .inr (.inr (.inr (.inr (.inr ⟨_, rfl⟩))))
  | reset => exact .inr (.inr (.inr (.inr (.inl rfl))))

/-- Everything a step that answers a next state can have done: nothing, a host action that is no command, or a command
word, in the state with that action taken off the list. -/
theorem step_cases {s u : State} (h : step s = .next u) :
    (s.actions = [] ∧ u = s) ∨
    (∃ a rest, s.actions = a :: rest ∧
      perform a { s with actions := rest, reply := .nothing } = .done u) ∨
    (∃ a rest w t, s.actions = a :: rest ∧
      perform a { s with actions := rest, reply := .nothing } = .command w t ∧ runCommand w t = .next u) := by
  cases hs : s.actions with
  | nil =>
    rw [step, nextAction_nil hs] at h
    cases h
    exact .inl ⟨rfl, rfl⟩
  | cons a rest =>
    rw [step, nextAction_cons hs] at h
    cases hp : perform a { s with actions := rest, reply := .nothing } with
    | done t =>
      simp only [hp, conclude] at h
      cases h
      exact .inr (.inl ⟨a, rest, rfl, hp⟩)
    | command w t =>
      simp only [hp, conclude] at h
      exact .inr (.inr ⟨a, rest, w, t, rfl, hp, h⟩)
    | refuse q => simp [hp, conclude] at h

end Sys2Proof.Machine
end

