-- ==== Sys2Proof/Laws/PerInstr.lean ====
section
/-! SUPPORT. The family EncodingShape: what the word of every command looks like (R57, R58), one lemma per command. -/

namespace Sys2Proof.Laws.EncodingShape

/-- The word of `i` matches the row of R58 for `i`, has its fields in the places of R57, and is legal by R62. -/
def Statement (i : Instr) : Prop :=
  encode i &&& i.maskBits = i.matchBits ∧ opcodeField (encode i) = i.opcode ∧ immField (encode i) = i.imm ∧
    zeroField (encode i) = 0 ∧ wordLegal (encode i) = true ∧ i.wf = true

theorem nop : Statement .nop := by unfold Statement; decide

theorem tchk : Statement .tchk := by unfold Statement; decide

theorem crcinit : Statement .crcinit := by unfold Statement; decide

theorem crcb (imm8 : Byte) : Statement (.crcb imm8) := by unfold Statement; revert imm8; decide

theorem crcupd : Statement .crcupd := by unfold Statement; decide

theorem crcfin : Statement .crcfin := by unfold Statement; decide

theorem crc32 : Statement .crc32 := by unfold Statement; decide

theorem ser : Statement .ser := by unfold Statement; decide

theorem des : Statement .des := by unfold Statement; decide

end Sys2Proof.Laws.EncodingShape
end

