-- ==== Sys2Proof/Tests/Slice0.lean ====
section
/-! SUPPORT. The model's own tests: the well-formedness smoke test, words written out from the encoding tables, one step per
test with the expected values of spec/95_test_vectors.md, and a witness for the hypotheses of every statement. -/

namespace Sys2Proof.Tests

open Sys2Proof Sys2Proof.Machine

/-! ## States -/

/-- The reset state of a machine with `n` bytes of BUF, windows at 0x1000 and 0x2000. -/
def machine (n : Nat) : State :=
  { State.reset with params := { bufSize := n, regBase := 0x1000, bufBase := 0x2000 } }

/-- The record RECA of 95_test_vectors.md: type "RuSt", payload "hi". -/
def recA : List Byte := [0x00, 0x00, 0x00, 0x02, 0x52, 0x75, 0x53, 0x74, 0x68, 0x69, 0xD2, 0xBC, 0x3F, 0x73]

/-- The base state of V11: payload "hi" at 0x20, type "RuSt". -/
def serState : State :=
  { machine 64 with mem := [(0x20, 0x68), (0x21, 0x69)], type := 0x52755374, len := 2, src := 0x20, lim := 0x22 }

/-- The base state of V13 and V14: RECA at 0, LIM = 14. -/
def desState : State := { machine 64 with mem := Mem.writeBytes [] 0 recA, lim := 14 }

/-- The next state of a command, or the state before it if there is none. -/
def after (i : Instr) (s : State) : State :=
  match exec i s with
  | .next t => t
  | .fault _ => s
  | .refused _ => s

/-- The next state of a step that performs one host action, or the state before it if there is none. -/
def afterAction (a : HostAction) (s : State) : State :=
  match step { s with actions := [a] } with
  | .next t => t
  | .fault _ => s
  | .refused _ => s

theorem exec_after (i : Instr) (s : State) : exec i s = .next (after i s) := by cases i <;> rfl

/-! ## Well-formedness: an ill-formed word for each check (R62) -/

theorem test_wf_opcode_refused : wordOpcodeKnown 0x00000022 = false := by decide

theorem test_wf_zeroField_refused : wordZeroField 0x00010000 = false := by decide

theorem test_wf_immField_refused : wordImmField 0x00000120 = false := by decide

theorem test_wf_word_refused :
    wordLegal 0x00000022 = false ∧ wordLegal 0x00010000 = false ∧ wordLegal 0x00000120 = false ∧
      wordLegal 0x0001FF11 = false ∧ wordLegal 0x00006111 = true := by decide

/-- The checks on host actions: not a word, not aligned, not listed, no such byte, wide BUF access, no such address. -/
theorem test_wf_actions_refused :
    (HostAction.regRead .half 0x00).admitted (machine 64).params = false ∧
      (HostAction.regRead .word 0x02).admitted (machine 64).params = false ∧
      (HostAction.regRead .word 0x34).admitted (machine 64).params = false ∧
      (HostAction.bufRead 64).admitted (machine 64).params = false ∧
      (HostAction.busRead .word 0x2000).admitted (machine 64).params = false ∧
      (HostAction.busRead .byte 0x2040).admitted (machine 64).params = false := by decide

/-- The checks on parameters (R5, R47): no byte, too many bytes, overlapping windows. -/
theorem test_wf_params_refused :
    (Params.mk 0 0x1000 0x2000).wf = false ∧ (Params.mk (2 ^ 32) 0 0x2000).wf = false ∧
      (Params.mk 64 0x1000 0x1033).wf = false ∧ (Params.mk 64 0x1000 0x1034).wf = true := by decide

/-! ## Decoding: words written out bit by bit from R57 and R58 -/

theorem test_decode_nop : decode 0b00000000000000000000000000000000 = .ok .nop := by decide
theorem test_decode_tchk : decode 0b00000000000000000000000000000001 = .ok .tchk := by decide
theorem test_decode_crcinit : decode 0b00000000000000000000000000010000 = .ok .crcinit := by decide
theorem test_decode_crcb : decode 0b00000000000000000110000100010001 = .ok (.crcb 0x61) := by decide
theorem test_decode_crcupd : decode 0b00000000000000000000000000010010 = .ok .crcupd := by decide
theorem test_decode_crcfin : decode 0b00000000000000000000000000010011 = .ok .crcfin := by decide
theorem test_decode_crc32 : decode 0b00000000000000000000000000010100 = .ok .crc32 := by decide
theorem test_decode_ser : decode 0b00000000000000000000000000100000 = .ok .ser := by decide
theorem test_decode_des : decode 0b00000000000000000000000000100001 = .ok .des := by decide

/-- V7: the illegal rows, by the line of R65 that rejects them. -/
theorem test_decode_illegal :
    decode 0x00000002 = .error .opcode ∧ decode 0x000000FF = .error .opcode ∧ decode 0x00000100 = .error .immField ∧
      decode 0x00000120 = .error .immField ∧ decode 0x00010000 = .error .zeroField ∧
      decode 0x0001FF11 = .error .zeroField ∧ decode 0x80000021 = .error .zeroField := by decide

theorem test_decodeTableWord : decodeTableWord 32 0xFF11 = some (.crcb 0xFF) ∧ decodeTableWord 32 0x22 = none := by decide

/-! ## The checksum and FLAGS (V1, V2, V5) -/

/-- V1. -/
theorem test_crcStep :
    crcStep 0x00000000 0x01 = 0x77073096 ∧ crcStep 0x00000000 0xFF = 0x2D02EF8D ∧
      crcStep 0xFFFFFFFF 0xFF = 0x00FFFFFF ∧ crcStep 0xA89820AA 0x75 = 0x16C45765 := by decide +kernel

/-- R82: the catalogue check value, and V2. -/
theorem test_crc32 :
    crc32 [] = 0x00000000 ∧ crc32 [0x31, 0x32, 0x33, 0x34, 0x35, 0x36, 0x37, 0x38, 0x39] = 0xCBF43926 ∧
      crc32 [0xFF, 0xFF, 0xFF, 0xFF] = 0xFFFFFFFF := by decide +kernel

/-- V5: the boundary letters and the bytes next to them. -/
theorem test_flags :
    flagsOf 0x415A617A = 0x1B ∧ flagsOf 0x405B607B = 0x0B ∧ flagsOf 0x74455874 = 0x3E ∧ flagsOf 0xFFFFFFFF = 0x08 := by
  decide

/-! ## Commands -/

/-- R71's example: STATUS and EINFO left by a failed DES are cleared, ACC is kept. -/
theorem test_nop_clears :
    let t := after .nop { machine 64 with status := 3, einfo := 0x0AE85CA0, acc := 5 }
    t.status = 0 ∧ t.einfo = 0 ∧ t.acc = 5 := by decide

/-- V6: the four boundary letters pass. -/
theorem test_tchk_passes : (after .tchk { machine 64 with type := 0x415A617A, status := 1 }).status = 0 := by decide

/-- V6: "Ru1t" fails, TYPE is kept. -/
theorem test_tchk_fails :
    let t := after .tchk { machine 64 with type := 0x52753174 }
    t.status = 1 ∧ t.einfo = 0x52753174 ∧ t.type = 0x52753174 := by decide

/-- V8. -/
theorem test_crcinit : (after .crcinit { machine 64 with acc := 0x12345678 }).acc = 0xFFFFFFFF := by decide

/-- V8. -/
theorem test_crcb : (after (.crcb 0x61) (machine 64)).acc = 0x174841BC := by decide +kernel

/-- V8: "abc" in BUF. -/
theorem test_crcupd :
    (after .crcupd { machine 256 with mem := [(0x80, 0x61), (0x81, 0x62), (0x82, 0x63)], src := 0x80, len := 3, lim := 0x100 }).acc =
      0xCADBBE3D := by decide +kernel

/-- V8: LIM above BUF_SIZE. -/
theorem test_crcupd_bounds :
    let t := after .crcupd { machine 256 with src := 0x80, len := 3, lim := 0x101 }
    t.status = 8 ∧ t.acc = 0xFFFFFFFF := by decide

/-- V8: ACC is kept. -/
theorem test_crcfin :
    let t := after .crcfin { machine 64 with acc := 0x542E27B1 }
    t.crc = 0xABD1D84E ∧ t.acc = 0x542E27B1 := by decide

/-- V8: "123456789" in BUF; ACC is kept. -/
theorem test_crc32_range :
    let m := Mem.writeBytes [] 0x10 [0x31, 0x32, 0x33, 0x34, 0x35, 0x36, 0x37, 0x38, 0x39]
    let t := after .crc32 { machine 256 with mem := m, src := 0x10, len := 9, lim := 0x19, acc := 0x174841BC }
    t.crc = 0xCBF43926 ∧ t.acc = 0x174841BC := by decide +kernel

/-- V8: the sum 2^33 - 2 is not wrapped. -/
theorem test_crc32_noWrap :
    (after .crc32 { machine 256 with src := 0xFFFFFFFF, len := 0xFFFFFFFF, lim := 0x100 }).status = 8 := by decide

/-- V11: the output ends exactly at BUF_SIZE. -/
theorem test_ser :
    let t := after .ser { serState with dst := 0x32 }
    t.mem.readBytes 0x32 14 = recA ∧ t.dst = 0x40 ∧ t.elen = 0x0E ∧ t.crc = 0xD2BC3F73 ∧ t.status = 0 ∧
      t.mem.readBytes 0x20 2 = [0x68, 0x69] := by decide +kernel

/-- V12: type before overlap. -/
theorem test_ser_typeBeforeOverlap :
    let t := after .ser { serState with type := 0x52753174, dst := 0x18 }
    t.status = 1 ∧ t.einfo = 0x52753174 ∧ t.dst = 0x18 := by decide

/-- V13. -/
theorem test_des :
    let t := after .des desState
    t.type = 0x52755374 ∧ t.len = 2 ∧ t.crc = 0xD2BC3F73 ∧ t.pay = 8 ∧ t.elen = 14 ∧ t.src = 14 ∧ t.status = 0 := by
  decide +kernel

/-- V14: the recomputed CRC is the context, not the stored one; SRC stays. -/
theorem test_des_crcError :
    let t := after .des { desState with mem := desState.mem.write 13 0x72 }
    t.status = 3 ∧ t.einfo = 0xD2BC3F73 ∧ t.src = 0 ∧ t.type = 0 := by decide +kernel

/-! ## Host actions (V17) -/

/-- A read of CMD returns 0; FLAGS follows TYPE with no command between; a write to ACC is ignored. -/
theorem test_registers :
    (afterAction (.regRead .word 0x30) (machine 64)).reply = .word 0 ∧
      (afterAction (.regRead .word 0x24) { machine 64 with type := 0x52755374 }).reply = .word 0x3D ∧
      (afterAction (.regWrite .word 0x20 0) (machine 64)).acc = 0xFFFFFFFF := by decide

/-- An illegal word written to CMD over the bus (V7, R47). -/
theorem test_bus_illegal :
    let t := afterAction (.busWrite .word 0x1030 0x00010021) (machine 64)
    t.status = 10 ∧ t.einfo = 0x00010021 := by decide

/-- A reset keeps BUF and clears the registers (R34, R144). -/
theorem test_reset :
    let t := afterAction .reset { serState with acc := 7 }
    t.type = 0 ∧ t.acc = 0xFFFFFFFF ∧ t.mem.read 0x20 = 0x68 := by decide

/-! ## Witnesses: a state and operands that meet the hypotheses of each statement -/

theorem witness_DecodeAgreesWithMatchAndMask :
    decode 0x00000011 = .ok (.crcb 0x00) ∧ decode 0x0000FF11 = .ok (.crcb 0xFF) := by decide

theorem witness_IllegalWordsRaiseIllegal :
    decode 0x00000022 = .error .opcode ∧ decode 0x00010000 = .error .zeroField ∧ decode 0x00000100 = .error .immField := by
  decide

theorem witness_StepRunsDecodedCommand :
    ({ machine 64 with actions := [.regWrite .word 0x30 0x21] } : State).actions = .regWrite .word 0x30 0x21 :: [] ∧
      decode 0x21 = .ok .des ∧ decode 0x99 = .error .opcode := by decide

theorem witness_PlacedWordRunsNext : decodeTableWord 32 0x0000FF11 = some (.crcb 0xFF) := by decide

theorem witness_IdleEngineKeepsState : (machine 64).actions = [] := by decide

/-- Both clauses, at the ends of the letter ranges. -/
theorem witness_TchkChecksLetters :
    FourLetters ({ machine 64 with type := 0x415A617A } : State).type ∧
      ¬ FourLetters ({ machine 64 with type := 0x405B607B } : State).type ∧
      ¬ FourLetters ({ machine 64 with type := 0x41414140 } : State).type := by decide

theorem witness_FlagsArePredicatesOfType :
    ({ machine 64 with type := 0x52755374 } : State).type = 0x52755374 ∧
      ({ machine 64 with type := 0x52757374 } : State).type = 0x52757374 ∧
      ({ machine 64 with type := 0x52753174 } : State).type = 0x52753174 ∧ 6 ≤ 6 := by decide

theorem witness_TypePredicatesOfLetters :
    ∃ s t : State, exec .tchk s = .next t ∧ t.status = 0 :=
  ⟨{ machine 64 with type := 0x41415A41 }, _, exec_after _ _, by decide⟩

/-- In bounds at the very end of BUF; LIM one too high; the range one byte too long. -/
theorem witness_CrcupdFeedsRange :
    (∃ s : State, s.lim.toNat ≤ s.params.bufSize ∧ s.src.toNat + s.len.toNat ≤ s.lim.toNat) ∧
      (∃ s : State, s.lim.toNat > s.params.bufSize) ∧ ∃ s : State, s.src.toNat + s.len.toNat > s.lim.toNat :=
  ⟨⟨{ machine 64 with src := 64, len := 0, lim := 64 }, by decide⟩, ⟨{ machine 64 with lim := 65 }, by decide⟩,
    ⟨{ machine 64 with src := 63, len := 2, lim := 64 }, by decide⟩⟩

theorem witness_Crc32ChecksumsRange :
    (∃ s : State, s.lim.toNat ≤ s.params.bufSize ∧ s.src.toNat + s.len.toNat ≤ s.lim.toNat) ∧
      (∃ s : State, s.lim.toNat > s.params.bufSize) ∧ ∃ s : State, s.src.toNat + s.len.toNat > s.lim.toNat :=
  ⟨⟨{ machine 64 with src := 63, len := 1, lim := 64 }, by decide⟩, ⟨{ machine 64 with lim := 65 }, by decide⟩,
    ⟨{ machine 64 with src := 65, len := 0, lim := 64 }, by decide⟩⟩

theorem witness_CrcDetectsSingleBitErrors :
    ([0x52] : List Byte).length = ([0x72] : List Byte).length ∧ 0 < 8 ∧ 7 < 8 := by decide

theorem witness_IncrementalEqualsOneShot :
    ∀ p ∈ ([.imm 0x52, .range 0x20 2 0x22, .range 64 0 64] : List CrcPiece), p.Fits serState.params := by
  simp [CrcPiece.Fits, serState, machine]

theorem witness_ChunkcrcGivesTheCrcOfSer : ∃ s t : State, exec .ser s = .next t ∧ t.status = 0 :=
  ⟨serState, _, exec_after _ _, by decide +kernel⟩

/-- The bounds clause by each of its three causes; no letters; overlap by one byte; success at the end of BUF and with touching
ranges. -/
theorem witness_SerWritesTheRecord :
    serState.params.wf = true ∧
      ({ serState with lim := 0x41 } : State).lim.toNat > serState.params.bufSize ∧
      ({ serState with lim := 0x21 } : State).src.toNat + 2 > 0x21 ∧
      ({ serState with dst := 0x33 } : State).dst.toNat + serState.len.toNat + 12 > serState.params.bufSize ∧
      (serState.lim.toNat ≤ serState.params.bufSize ∧ serState.src.toNat + serState.len.toNat ≤ serState.lim.toNat) ∧
      ({ serState with dst := 0x32 } : State).dst.toNat + serState.len.toNat + 12 ≤ serState.params.bufSize ∧
      ¬ FourLetters ({ serState with type := 0x52753174 } : State).type ∧ FourLetters serState.type ∧
      ({ serState with dst := 0x21 } : State).SerOverlap ∧ ¬ ({ serState with dst := 0x22 } : State).SerOverlap ∧
      ¬ ({ serState with dst := 0x12 } : State).SerOverlap := by decide

theorem witness_SerRecordDependsOnTypeAndPayload :
    ∃ s1 s2 t1 t2 : State, s1.type = s2.type ∧ s1.len = s2.len ∧
      s1.mem.readBytes s1.src.toNat s1.len.toNat = s2.mem.readBytes s2.src.toNat s2.len.toNat ∧
      exec .ser s1 = .next t1 ∧ t1.status = 0 ∧ exec .ser s2 = .next t2 ∧ t2.status = 0 :=
  ⟨serState, { serState with dst := 0x32, crc := 7 }, _, _, rfl, rfl, by decide +kernel, exec_after _ _, by decide +kernel,
    exec_after _ _, by decide +kernel⟩

/-- One state for each clause: the bounds by both causes, truncation at 3 and at 13 bytes, a bad type, a bad CRC, success. -/
theorem witness_DesParsesTheRecord :
    desState.params.wf = true ∧
      ({ desState with lim := 65 } : State).lim.toNat > desState.params.bufSize ∧
      ({ desState with src := 15 } : State).src.toNat > desState.lim.toNat ∧
      desState.lim.toNat ≤ desState.params.bufSize ∧ desState.src.toNat ≤ desState.lim.toNat ∧
      ({ desState with lim := 3 } : State).avail < 4 ∧
      ({ desState with lim := 13 } : State).avail < desState.wireLength + 12 ∧
      desState.wireLength + 12 ≤ desState.avail ∧
      ¬ FourLetters ({ desState with mem := desState.mem.write 6 0x31 } : State).wireType ∧ FourLetters desState.wireType ∧
      ({ desState with mem := desState.mem.write 13 0x72 } : State).recomputedCrc ≠
        ({ desState with mem := desState.mem.write 13 0x72 } : State).wireCrc ∧
      desState.recomputedCrc = desState.wireCrc := by decide +kernel

theorem witness_DesDeliversOnlyVerifiedRecords :
    (∃ s t : State, s.params.wf = true ∧ exec .des s = .next t ∧ t.status = 0) ∧
      ∃ s t : State, s.params.wf = true ∧ exec .des s = .next t ∧ t.status ≠ 0 :=
  ⟨⟨desState, _, by decide, exec_after _ _, by decide +kernel⟩,
    ⟨{ desState with lim := 13 }, _, by decide, exec_after _ _, by decide +kernel⟩⟩

/-- With LIM at the end of the record and at the end of BUF. -/
theorem witness_SerThenDesRoundTrip :
    ∃ s t : State, s.params.wf = true ∧ exec .ser s = .next t ∧ t.status = 0 ∧
      (s.dst.toNat + s.len.toNat + 12 ≤ (0x0E : Word).toNat ∧ (0x0E : Word).toNat ≤ s.params.bufSize) ∧
      (s.dst.toNat + s.len.toNat + 12 ≤ (0x40 : Word).toNat ∧ (0x40 : Word).toNat ≤ s.params.bufSize) :=
  ⟨serState, _, by decide, exec_after _ _, by decide +kernel, by decide, by decide⟩

/-- A flip that makes a type byte no letter, one of bit 5, one in the payload and one in the last byte of the CRC field. -/
theorem witness_SingleBitFlipsAreDetected :
    ∃ s t : State, s.params.wf = true ∧ exec .des s = .next t ∧ t.status = 0 ∧
      (s.src.toNat + 4 ≤ 4 ∧ 4 < s.src.toNat + 8 ∧ ¬ Letter (s.mem.read 4 ^^^ BitVec.twoPow 8 6)) ∧
      Letter (s.mem.read 4 ^^^ BitVec.twoPow 8 5) ∧
      s.src.toNat + 8 ≤ 8 ∧ 13 < s.src.toNat + t.len.toNat + 12 :=
  ⟨desState, _, by decide, exec_after _ _, by decide +kernel, by decide +kernel, by decide +kernel, by decide, by decide +kernel⟩

/-- A payload that ends at the first DST, one that begins where its own record ends and that the next record overwrites, and an
empty one. -/
theorem witness_SerSequenceConcatenatesRecords :
    let s : State := { serState with dst := 2 }
    let jobs : List (Word × Word × Word) := [(0x52755374, 2, 0x00), (0x52755374, 2, 0x1E), (0x49454E44, 0, 0x22)]
    s.params.wf = true ∧ s.lim.toNat ≤ s.params.bufSize ∧
      40 = (jobs.map fun j => j.2.1.toNat + 12).sum ∧ s.dst.toNat + 40 ≤ s.params.bufSize ∧
      ∀ k j, jobs[k]? = some j → FourLetters j.1 ∧ j.2.2.toNat + j.2.1.toNat ≤ s.lim.toNat ∧
        (j.2.1.toNat = 0 ∨ j.2.2.toNat + j.2.1.toNat ≤ s.dst.toNat ∨
          s.dst.toNat + ((jobs.take (k + 1)).map fun j => j.2.1.toNat + 12).sum ≤ j.2.2.toNat) := by
  refine ⟨by decide, by decide, by decide, by decide, fun k j h => ?_⟩
  match k, h with
  | 0, h => cases h; decide +kernel
  | 1, h => cases h; decide +kernel
  | 2, h => cases h; decide +kernel
  | k + 3, h => cases h

/-- Two records, and both of them by number: the first, after which SRC is below LIM, and the last. -/
theorem witness_WalkDeliversRecordsInOrder :
    let recs : List (Word × List Byte) := [(0x52755374, [0x68, 0x69]), (0x49454E44, [])]
    let s : State :=
      { desState with
        mem := Mem.writeBytes [] 0 (recA ++ [0x00, 0x00, 0x00, 0x00, 0x49, 0x45, 0x4E, 0x44, 0xAE, 0x42, 0x60, 0x82])
        lim := 26 }
    s.params.wf = true ∧ s.lim.toNat ≤ s.params.bufSize ∧ (∀ r ∈ recs, FourLetters r.1) ∧
      s.src.toNat + (recs.flatMap fun r => wireRecord r.1 r.2).length = s.lim.toNat ∧
      s.mem.readBytes s.src.toNat (s.lim.toNat - s.src.toNat) = recs.flatMap (fun r => wireRecord r.1 r.2) ∧
      recs[0]? = some (0x52755374, [0x68, 0x69]) ∧ recs[1]? = some (0x49454E44, []) :=
  ⟨by decide, by decide, by simp only [List.forall_mem_cons]; exact ⟨by decide +kernel, by decide +kernel, by simp⟩,
    by decide +kernel, by decide +kernel, rfl, rfl⟩

/-- Every error code and success. -/
theorem witness_ErrorsArePrecise :
    (after .tchk (machine 64)).status = 1 ∧ (after .des { desState with lim := 3 }).status = 2 ∧
      (after .des { desState with mem := desState.mem.write 13 0x72 }).status = 3 ∧
      (after .crc32 { machine 64 with lim := 65 }).status = 8 ∧ (after .ser { serState with dst := 0x21 }).status = 9 ∧
      (after .nop (machine 64)).status = 0 ∧ decode 0x22 = .error .opcode := by decide +kernel

theorem witness_OnlyListedCodesAreWritten :
    (∃ (i : Instr) (s t : State), exec i s = .next t) ∧ ∃ (w : Word) (s t : State), runCommand w s = .next t :=
  ⟨⟨.des, desState, _, exec_after _ _⟩, ⟨0x22, machine 64, _, rfl⟩⟩

theorem witness_ErrorsDoNotStick :
    ∃ (a : HostAction) (s t : State), a ≠ .reset ∧ perform a s = .done t :=
  ⟨.regWrite .word 0x00 5, machine 64, _, by decide, rfl⟩

theorem witness_CommandWriteSets :
    (∃ (i : Instr) (s t : State), exec i s = .next t) ∧ Reg.dst ∈ operandRegs ∧ Reg.dst ∉ writeSet .des :=
  ⟨⟨.des, desState, _, exec_after _ _⟩, by decide, by decide⟩

theorem witness_CommandReadSets :
    (∃ (i : Instr) (s t : State), exec i s = .next t) ∧ Reg.crc ∈ operandRegs ∧ Reg.crc ∉ readSet .ser :=
  ⟨⟨.ser, serState, _, exec_after _ _⟩, by decide, by decide⟩

/-- BUF differs at LIM, and nowhere below it. -/
theorem witness_CommandsReadOnlyBelowLim :
    ∃ (s t : State) (m : Mem), (∀ a, a < s.lim.toNat → m.read a = s.mem.read a) ∧ exec .des s = .next t ∧ m ≠ s.mem :=
  ⟨desState, _, desState.mem.write 14 0x99,
    fun a h => by
      have h' : a < 14 := h
      revert a
      decide +kernel,
    exec_after _ _, by decide +kernel⟩

/-- Each of the five, TCHK in both outcomes. -/
theorem witness_FiveCommandsAreIdempotent :
    (∀ i ∈ ([.nop, .tchk, .crcinit, .crcfin, .crc32] : List Instr), ∃ s t : State, exec i s = .next t ∧ t.status = 0) ∧
      ∃ s t : State, exec .tchk s = .next t ∧ t.status = 1 := by
  simp only [List.forall_mem_cons]
  exact ⟨⟨⟨serState, _, exec_after _ _, by decide⟩, ⟨serState, _, exec_after _ _, by decide⟩,
    ⟨serState, _, exec_after _ _, by decide⟩, ⟨serState, _, exec_after _ _, by decide⟩,
    ⟨serState, _, exec_after _ _, by decide +kernel⟩, by simp⟩, ⟨machine 64, _, exec_after _ _, by decide⟩⟩

theorem desState_inv : ({ desState with actions := [.regWrite .word 0x30 0x21] } : State).Inv :=
  ⟨by decide, by decide +kernel, by decide +kernel, by decide +kernel, by decide +kernel, by decide +kernel⟩

theorem witness_EveryStepKeepsTheInvariant : ∃ s t : State, s.Inv ∧ step s = .next t :=
  ⟨_, _, desState_inv, rfl⟩

theorem witness_ResetValues :
    (∃ s : State, s = State.reset) ∧ ∃ s t : State, s = resetRegisters t :=
  ⟨⟨_, rfl⟩, ⟨_, desState, rfl⟩⟩

theorem witness_ResetActionResetsRegisters :
    ({ serState with actions := [.reset] } : State).actions = .reset :: [] := by decide

/-- With BUF_SIZE just below and at 12. -/
theorem witness_FirstCommandsAfterReset :
    (∃ s : State, s.params.wf = true ∧ s = resetRegisters s ∧ s.params.bufSize < 12) ∧
      ∃ s : State, s.params.wf = true ∧ s = resetRegisters s ∧ 12 ≤ s.params.bufSize :=
  ⟨⟨machine 11, by decide, by decide, by decide⟩, ⟨machine 12, by decide, by decide, by decide⟩⟩

theorem witness_HostReadsRegisters :
    ∃ s : State, (0x30, (0 : Word)) ∈ [(0x00, s.type), (0x04, s.len), (0x08, s.src), (0x0C, s.lim), (0x10, s.dst),
      (0x14, s.crc), (0x18, s.elen), (0x1C, s.pay), (0x20, s.acc), (0x24, flagsOf s.type), (0x28, s.status),
      (0x2C, s.einfo), (0x30, 0)] ∧ s.actions = .regRead .word 0x30 :: [] :=
  ⟨{ machine 64 with actions := [.regRead .word 0x30] }, by decide, rfl⟩

theorem witness_HostWritesRegisters :
    ∀ o ∈ ([0x00, 0x04, 0x08, 0x0C, 0x10, 0x14, 0x2C] : List Nat),
      ({ machine 64 with actions := [.regWrite .word o 9] } : State).actions = .regWrite .word o 9 :: [] :=
  fun _ _ => rfl

/-- The last byte of BUF and the first index after it, for both accesses. -/
theorem witness_HostAccessesBufBytes :
    (∃ s : State, s.actions = .bufWrite 63 9 :: [] ∧ 63 < s.params.bufSize) ∧
      (∃ s : State, s.actions = .bufWrite 64 9 :: [] ∧ s.params.bufSize ≤ 64) ∧
      (∃ s : State, s.actions = .bufRead 63 :: [] ∧ 63 < s.params.bufSize) ∧
      ∃ s : State, s.actions = .bufRead 64 :: [] ∧ s.params.bufSize ≤ 64 :=
  ⟨⟨{ machine 64 with actions := [.bufWrite 63 9] }, rfl, by decide⟩,
    ⟨{ machine 64 with actions := [.bufWrite 64 9] }, rfl, by decide⟩,
    ⟨{ machine 64 with actions := [.bufRead 63] }, rfl, by decide⟩, ⟨{ machine 64 with actions := [.bufRead 64] }, rfl, by decide⟩⟩

/-- The last byte of each window, and the first bus address after it. -/
theorem witness_BusReachesTheTwoWindows :
    (machine 64).params.wf = true ∧ 0x33 < 0x34 ∧ 63 < (machine 64).params.bufSize ∧
      ((machine 64).params.regBase + 0x34 ≤ 0x1034 ∧ 0x1034 < (machine 64).params.bufBase) ∧
      ((machine 64).params.regBase + 0x34 ≤ 0x2040 ∧
        (machine 64).params.bufBase + (machine 64).params.bufSize ≤ 0x2040) := by decide

theorem witness_AdmittedActionsComplete :
    (machine 64).params.wf = true ∧ (HostAction.busWrite .byte 0x203F 9).admitted (machine 64).params = true ∧
      (HostAction.busWrite .byte 0x2040 9).admitted (machine 64).params = false ∧
      ({ machine 64 with actions := [.busWrite .byte 0x2040 9] } : State).actions = .busWrite .byte 0x2040 9 :: [] := by decide

end Sys2Proof.Tests
end

section
/-! SUPPORT. FLAGS as the host reads it: each naming predicate by the bit of TYPE that decides it (R26). -/

namespace Sys2Proof.Machine

@[simp] theorem readReg_flags (s : State) : readReg .flags s = flagsOf s.type := rfl

theorem flagCritical_iff (t : Word) : flagCritical t = true ↔ t.getLsbD 29 = false := by
  simp [flagCritical, caseBit_eq]

theorem flagPublic_iff (t : Word) : flagPublic t = true ↔ t.getLsbD 21 = false := by
  simp [flagPublic, caseBit_eq]

theorem flagReservedValid_iff (t : Word) : flagReservedValid t = true ↔ t.getLsbD 13 = false := by
  simp [flagReservedValid, caseBit_eq]

theorem flagSafeToCopy_iff (t : Word) : flagSafeToCopy t = true ↔ t.getLsbD 5 = true := by
  simp [flagSafeToCopy, caseBit_eq]

theorem flagValid_iff (t : Word) : flagValid t = true ↔ FourLetters t ∧ t.getLsbD 13 = false := by
  rw [flagValid, Bool.and_eq_true, allLetters_iff, flagReservedValid_iff]

/-- The reset value of TYPE has CRITICAL, PUBLIC and RESERVED_VALID set and holds no letter (R26, R34). -/
theorem flagsOf_zero : flagsOf 0 = 0x00000007 := by decide

end Sys2Proof.Machine
end

section
/-! PROOFS. The obligations about the stored registers and FLAGS (10_state.md). -/

namespace Sys2Proof.Machine

/-- Settles O10: each bit of FLAGS is one naming predicate (`flagsOf_bits`), and each predicate is one bit of TYPE or the
letter test; the values after reset and of the three worked types are computed. -/
theorem flagsArePredicatesOfType : Obligations.FlagsArePredicatesOfType := by
  refine ⟨fun s => ?_, flagsOf_zero, ?_, ?_, ?_⟩
  · obtain ⟨critical, pub, reservedValid, safeToCopy, alpha, valid⟩ := flagsOf_bits s.type
    rw [readReg_flags, critical, pub, reservedValid, safeToCopy, alpha, valid]
    exact ⟨flagCritical_iff _, flagPublic_iff _, flagReservedValid_iff _, flagSafeToCopy_iff _, allLetters_iff _,
      flagValid_iff _, fun _ => flagsOf_high _, fun t sameType => by rw [readReg_flags, sameType],
      fun v => writeReg_readOnly (by decide) v s⟩
  all_goals
    intro s hType
    rw [readReg_flags, hType]
    decide

/-- Settles O40: power-up and a reset from any state give the registers the same constants, and FLAGS follows from TYPE. -/
theorem resetValues : Obligations.ResetValues := by
  refine ⟨fun s afterReset => ?_, resetRegisters_mem⟩
  have flagsAfterReset (hType : s.type = 0) : readReg .flags s = 0x00000007 := by
    rw [readReg_flags, hType, flagsOf_zero]
  obtain rfl | ⟨t, rfl⟩ := afterReset
  · exact ⟨rfl, rfl, rfl, rfl, rfl, rfl, rfl, rfl, rfl, rfl, rfl, flagsAfterReset rfl⟩
  · exact ⟨resetRegisters_type t, resetRegisters_len t, resetRegisters_src t, resetRegisters_lim t, resetRegisters_dst t,
      resetRegisters_crc t, resetRegisters_elen t, resetRegisters_pay t, resetRegisters_acc t, resetRegisters_status t,
      resetRegisters_einfo t, flagsAfterReset (resetRegisters_type t)⟩

end Sys2Proof.Machine
end

section
/-! SUPPORT. The two mappings between a 32-bit value and its four wire bytes, bit by bit (R11, R40). -/

namespace Sys2Proof.Machine

theorem getLsbD_wireByte (v : Word) (k : Nat) {i : Nat} (h : i < 8) :
    (wireByte v k).getLsbD i = v.getLsbD (24 - 8 * k + i) := by
  rw [wireByte, BitVec.getLsbD_extractLsb', decide_eq_true h, Bool.true_and]

/-- The four shifted bytes of `be32` do not meet: each bit of the value is a bit of one of them. -/
theorem getLsbD_be32 (b0 b1 b2 b3 : Byte) {i : Nat} (h : i < 32) :
    (be32 b0 b1 b2 b3).getLsbD i =
      if i < 8 then b3.getLsbD i
      else if i < 16 then b2.getLsbD (i - 8)
      else if i < 24 then b1.getLsbD (i - 16)
      else b0.getLsbD (i - 24) := by
  simp only [be32, BitVec.getLsbD_or, BitVec.getLsbD_shiftLeft, BitVec.getLsbD_setWidth]
  split_ifs <;> simp (disch := omega) only [BitVec.getLsbD_of_ge, decide_eq_true, decide_eq_false, Bool.true_and,
    Bool.and_true, Bool.and_false, Bool.false_and, Bool.not_true, Bool.not_false, Bool.or_false, Bool.false_or]

/-- Every bit of a value comes back from the wire byte that took it. -/
theorem be32_wireByte (v : Word) : be32 (wireByte v 0) (wireByte v 1) (wireByte v 2) (wireByte v 3) = v := by
  refine BitVec.eq_of_getLsbD_eq fun i hi => ?_
  rw [getLsbD_be32 _ _ _ _ hi]
  split_ifs
  all_goals
    rw [getLsbD_wireByte _ _ (by omega)]
    congr 1
    omega

/-- Wire byte `k` is `b` when `b` has the value's bits from `24 - 8 * k` on. -/
theorem wireByte_eq_of_getLsbD {v : Word} {k : Nat} {b : Byte}
    (h : ∀ i < 8, v.getLsbD (24 - 8 * k + i) = b.getLsbD i) : wireByte v k = b :=
  BitVec.eq_of_getLsbD_eq fun i hi => (getLsbD_wireByte v k hi).trans (h i hi)

theorem bytesBe32_be32 (b0 b1 b2 b3 : Byte) : bytesBe32 (be32 b0 b1 b2 b3) = [b0, b1, b2, b3] := by
  rw [bytesBe32, wireByte_eq_of_getLsbD (b := b0), wireByte_eq_of_getLsbD (b := b1),
    wireByte_eq_of_getLsbD (b := b2), wireByte_eq_of_getLsbD (b := b3)]
  all_goals
    intro i hi
    rw [getLsbD_be32 _ _ _ _ (by omega)]
    simp (disch := omega) only [if_pos, if_neg]
    congr 1
    omega

/-- A value written to BUF stands there as its wire bytes, in order. -/
theorem Mem.read_writeBytes_bytesBe32 (m : Mem) (a : Nat) (v : Word) :
    (m.writeBytes a (bytesBe32 v)).read a = wireByte v 0 ∧
      (m.writeBytes a (bytesBe32 v)).read (a + 1) = wireByte v 1 ∧
      (m.writeBytes a (bytesBe32 v)).read (a + 2) = wireByte v 2 ∧
      (m.writeBytes a (bytesBe32 v)).read (a + 3) = wireByte v 3 := by
  have readBack := Mem.readBytes_writeBytes m a (bytesBe32 v)
  rw [length_bytesBe32, Mem.readBytes_four] at readBack
  simpa [bytesBe32] using readBack

@[simp] theorem Mem.readBe32_writeBytes_bytesBe32 (m : Mem) (a : Nat) (v : Word) :
    (m.writeBytes a (bytesBe32 v)).readBe32 a = v := by
  obtain ⟨byte0, byte1, byte2, byte3⟩ := Mem.read_writeBytes_bytesBe32 m a v
  rw [Mem.readBe32, byte0, byte1, byte2, byte3, be32_wireByte]

end Sys2Proof.Machine
end

section
/-! PROOFS. The obligation about 32-bit values in BUF (20_memory.md). -/

namespace Sys2Proof.Machine

/-- Settles O22: the bytes written are the wire bytes of the value, and `be32` and `bytes_be32` undo each other; the two
examples are computed. -/
theorem wireIntegersAreBigEndian : Obligations.WireIntegersAreBigEndian := by
  refine ⟨fun m a v => ?_, bytesBe32_be32, by decide, by decide⟩
  obtain ⟨byte0, byte1, byte2, byte3⟩ := Mem.read_writeBytes_bytesBe32 m a v
  exact ⟨byte0, byte1, byte2, byte3, Mem.readBe32_writeBytes_bytesBe32 m a v⟩

end Sys2Proof.Machine
end

section
/-! SUPPORT. What the decoder answers, by the fields of the word (R57, R62, R65), by the match and mask columns (R58) and
by the predicate of legal words (R62). -/

namespace Sys2Proof

/-- A command that R58 gives to an opcode other than CRCB's is found by the format-Z table, and its immediate is 0. -/
theorem decodeOpcodeZ_opcode {i : Instr} (notCrcb : i.opcode ≠ 0x11) : decodeOpcodeZ i.opcode = some i ∧ i.imm = 0 := by
  cases i with
  | crcb b => exact absurd rfl notCrcb
  | _ => exact ⟨rfl, rfl⟩

theorem eq_crcb_of_opcode {i : Instr} (h : i.opcode = 0x11) : i = .crcb i.imm := by
  cases i with
  | crcb b => rfl
  | _ => exact absurd h (by decide)

/-- A word is a command exactly when it has the command's fields (R57, R65). -/
theorem decode_eq_ok_iff (w : Word) (i : Instr) :
    decode w = .ok i ↔ zeroField w = 0 ∧ immField w = i.imm ∧ opcodeField w = i.opcode := by
  constructor
  · intro h
    unfold decode at h
    split_ifs at h with zero crcb imm
    · cases h
      exact ⟨not_not.mp zero, rfl, crcb⟩
    · split at h
      next j found =>
        cases h
        obtain ⟨opcode, immZero⟩ := decodeOpcodeZ_some found
        exact ⟨not_not.mp zero, (not_not.mp imm).trans immZero.symm, opcode.symm⟩
      next => cases h
  · rintro ⟨zero, imm, opcode⟩
    by_cases crcb : i.opcode = 0x11
    · rw [eq_crcb_of_opcode crcb]
      rw [decode, zero, imm, opcode, if_neg (not_not.mpr rfl), if_pos crcb]
    · obtain ⟨found, immZero⟩ := decodeOpcodeZ_opcode crcb
      rw [decode, zero, imm, opcode, if_neg (not_not.mpr rfl), if_neg crcb, if_neg (not_not.mpr immZero), found]

/-! ## Match and mask -/

/-- Two words are equal when their three fields are. -/
theorem word_eq_iff_fields (v w : Word) :
    v = w ↔ zeroField v = zeroField w ∧ immField v = immField w ∧ opcodeField v = opcodeField w := by
  refine ⟨fun h => h ▸ ⟨rfl, rfl, rfl⟩, fun ⟨zero, imm, opcode⟩ => ?_⟩
  rw [← word_eq_fields v, ← word_eq_fields w, zero, imm, opcode]

@[simp] theorem zeroField_and (v w : Word) : zeroField (v &&& w) = zeroField v &&& zeroField w :=
  BitVec.extractLsb'_and

@[simp] theorem immField_and (v w : Word) : immField (v &&& w) = immField v &&& immField w :=
  BitVec.extractLsb'_and

@[simp] theorem opcodeField_and (v w : Word) : opcodeField (v &&& w) = opcodeField v &&& opcodeField w :=
  BitVec.extractLsb'_and

/-- The match column is 0 but for the opcode (R58). -/
theorem matchBits_fields (i : Instr) :
    zeroField i.matchBits = 0 ∧ immField i.matchBits = 0 ∧ opcodeField i.matchBits = i.opcode := by
  cases i with
  | crcb b =>
    change zeroField 0x00000011 = 0 ∧ immField 0x00000011 = 0 ∧ opcodeField 0x00000011 = 0x11
    decide
  | _ => decide

/-- The mask column covers bits 31:16 and the opcode of every command (R58). -/
theorem maskBits_fields (i : Instr) :
    zeroField i.maskBits = BitVec.allOnes 16 ∧ opcodeField i.maskBits = BitVec.allOnes 8 := by
  cases i with
  | crcb b =>
    change zeroField 0xFFFF00FF = BitVec.allOnes 16 ∧ opcodeField 0xFFFF00FF = BitVec.allOnes 8
    decide
  | _ => decide

/-- The mask covers the immediate only of the commands whose immediate is 0 (R58). -/
theorem imm_and_maskBits (i : Instr) : i.imm &&& immField i.maskBits = 0 := by
  cases i with
  | crcb b =>
    have immMask : immField (Instr.crcb b).maskBits = 0 := (by decide : immField 0xFFFF00FF = 0)
    rw [immMask]
    exact BitVec.and_zero
  | _ => exact BitVec.zero_and

/-- The comparison of R58, field by field. -/
theorem and_maskBits_eq_matchBits_iff (w : Word) (i : Instr) :
    w &&& i.maskBits = i.matchBits ↔
      zeroField w = 0 ∧ immField w &&& immField i.maskBits = 0 ∧ opcodeField w = i.opcode := by
  obtain ⟨matchZero, matchImm, matchOpcode⟩ := matchBits_fields i
  obtain ⟨maskZero, maskOpcode⟩ := maskBits_fields i
  rw [word_eq_iff_fields, zeroField_and, immField_and, opcodeField_and, matchZero, matchImm, matchOpcode, maskZero,
    maskOpcode, BitVec.and_allOnes, BitVec.and_allOnes]

/-- A word is a command exactly when it passes the comparison of R58 and has the command's immediate. -/
theorem decode_eq_ok_iff_mask (w : Word) (i : Instr) :
    decode w = .ok i ↔ w &&& i.maskBits = i.matchBits ∧ immField w = i.imm := by
  rw [decode_eq_ok_iff, and_maskBits_eq_matchBits_iff]
  constructor
  · rintro ⟨zero, imm, opcode⟩
    exact ⟨⟨zero, imm ▸ imm_and_maskBits i, opcode⟩, imm⟩
  · rintro ⟨⟨zero, -, opcode⟩, imm⟩
    exact ⟨zero, imm, opcode⟩

/-- Where the mask covers the whole word, the comparison of R58 alone decides. -/
theorem decode_eq_ok_iff_of_fullMask (w : Word) {i : Instr} (full : i.maskBits = 0xFFFFFFFF#32) :
    decode w = .ok i ↔ w &&& 0xFFFFFFFF#32 = i.matchBits := by
  rw [decode_eq_ok_iff_mask, full, and_iff_left_iff_imp]
  intro compared
  have immMask : immField i.maskBits = BitVec.allOnes 8 := by rw [full]; decide
  have immZero := imm_and_maskBits i
  obtain ⟨-, wordImmZero, -⟩ := (and_maskBits_eq_matchBits_iff w i).mp (full ▸ compared)
  rw [immMask, BitVec.and_allOnes] at immZero wordImmZero
  rw [wordImmZero, immZero]

/-! ## Illegal words -/

/-- A word is legal when none of the three conditions of R62 holds. -/
theorem wordLegal_iff (w : Word) :
    wordLegal w = true ↔
      opcodeField w ∈ knownOpcodes ∧ zeroField w = 0 ∧ (opcodeField w = 0x11 ∨ immField w = 0) := by
  simp [wordLegal, wordOpcodeKnown, wordZeroField, wordImmField, opcodeField, zeroField, immField, and_assoc]

/-- The known opcodes are CRCB's and those of the format-Z table (R58). -/
theorem mem_knownOpcodes_iff (op : Byte) : op ∈ knownOpcodes ↔ op = 0x11 ∨ (decodeOpcodeZ op).isSome = true := by
  rw [decodeOpcodeZ_isSome_iff]
  simp only [knownOpcodes, List.mem_cons]
  tauto

/-- The decoder rejects exactly the words that R62 calls illegal. -/
theorem exists_decode_eq_error_iff (w : Word) : (∃ r, decode w = .error r) ↔ ¬ wordLegal w = true := by
  rw [wordLegal_iff, mem_knownOpcodes_iff]
  unfold decode
  split_ifs with zero crcb imm
  · exact iff_of_true ⟨_, rfl⟩ fun ⟨_, zeroField_eq, _⟩ => zero zeroField_eq
  · exact iff_of_false (by simp) (not_not.mpr ⟨.inl crcb, not_not.mp zero, .inl crcb⟩)
  · exact iff_of_true ⟨_, rfl⟩ fun ⟨_, _, crcbOrImm⟩ => crcbOrImm.elim crcb imm
  · cases found : decodeOpcodeZ (opcodeField w) with
    | none => exact iff_of_true ⟨_, rfl⟩ fun ⟨known, _⟩ => known.elim crcb (by simp)
    | some i => exact iff_of_false (by simp) (not_not.mpr ⟨.inr rfl, not_not.mp zero, .inr (not_not.mp imm)⟩)

/-- A word is illegal when one of the three conditions of R62 holds. -/
theorem not_wordLegal_iff (w : Word) :
    ¬ wordLegal w = true ↔
      opcodeField w ∉ knownOpcodes ∨ zeroField w ≠ 0 ∨ (opcodeField w ≠ 0x11 ∧ immField w ≠ 0) := by
  rw [wordLegal_iff, not_and_or, not_and_or, not_or]

namespace Machine

/-- An illegal word executes as E_ILLEGAL with the word as context (R62). -/
theorem runCommand_of_error {w : Word} {r : Illegal} (h : decode w = .error r) (s : State) :
    runCommand w s = .next (raise .illegal w s) := by
  rw [runCommand, h]

end Machine

end Sys2Proof
end

section
/-! PROOFS. The obligations about the match and mask columns and about illegal words (30_encoding.md). -/

namespace Sys2Proof.Machine

/-- Settles O2: the mask covers the whole word for every command but CRCB, so the comparison decides; for CRCB it leaves
the immediate open, which is the word's own. -/
theorem decodeAgreesWithMatchAndMask : Obligations.DecodeAgreesWithMatchAndMask := by
  intro w
  have fullMask (i : Instr) (full : i.maskBits = 0xFFFFFFFF#32) := decode_eq_ok_iff_of_fullMask w full
  have crcbRow := decode_eq_ok_iff_mask w (.crcb (w.extractLsb' 8 8))
  exact ⟨fullMask .nop rfl, fullMask .tchk rfl, fullMask .crcinit rfl,
    crcbRow.trans (and_iff_left rfl),
    fun b decoded => ((decode_eq_ok_iff_mask w (.crcb b)).mp decoded).right.symm,
    fullMask .crcupd rfl, fullMask .crcfin rfl, fullMask .crc32 rfl, fullMask .ser rfl, fullMask .des rfl⟩

/-- Settles O3: the rejected words are those of R62's three conditions, and each runs as E_ILLEGAL. -/
theorem illegalWordsRaiseIllegal : Obligations.IllegalWordsRaiseIllegal := fun w =>
  ⟨(exists_decode_eq_error_iff w).trans (not_wordLegal_iff w), fun ⟨_, rejected⟩ => runCommand_of_error rejected⟩

end Sys2Proof.Machine
end

section
/-! SUPPORT. What NOP and TCHK answer (R71, R72), and the naming predicates of a TYPE that is four letters (R74). -/

namespace Sys2Proof.Machine

theorem exec_nop (s : State) : exec .nop s = .next (succeed s) := rfl

theorem exec_tchk_of_fourLetters {s : State} (letters : FourLetters s.type) : exec .tchk s = .next (succeed s) :=
  congrArg Host.Outcome.next (if_pos ((allLetters_iff s.type).mpr letters))

theorem exec_tchk_of_not_fourLetters {s : State} (notLetters : ¬ FourLetters s.type) :
    exec .tchk s = .next (raise .type s.type s) :=
  congrArg Host.Outcome.next (if_neg (mt (allLetters_iff s.type).mp notLetters))

theorem status_eq_zero_iff_of_exec_tchk {s t : State} (run : exec .tchk s = .next t) :
    t.status = 0 ↔ FourLetters s.type := by
  by_cases letters : FourLetters s.type
  · cases (exec_tchk_of_fourLetters letters).symm.trans run
    exact iff_of_true (succeed_status s) letters
  · cases (exec_tchk_of_not_fourLetters letters).symm.trans run
    exact iff_of_false (by rw [raise_status]; decide) letters

/-- Among the letters, bit 5 (0x20) is 0 exactly in the upper-case ones (R25, R26). -/
theorem Letter.bit5_eq_false_iff {b : Byte} (letter : Letter b) :
    b.getLsbD 5 = false ↔ 0x41 ≤ b.toNat ∧ b.toNat ≤ 0x5A := by
  rw [← BitVec.testBit_toNat, Nat.testBit_eq_decide_div_mod_eq, decide_eq_false_iff_not]
  obtain upper | lower := letter <;> omega

/-- For a TYPE of four letters RESERVED_VALID says that byte 2 is upper case (R74). -/
theorem flagReservedValid_iff_of_fourLetters {t : Word} (letters : FourLetters t) :
    flagReservedValid t = true ↔ 0x41 ≤ (t.extractLsb' 8 8).toNat ∧ (t.extractLsb' 8 8).toNat ≤ 0x5A := by
  obtain ⟨-, -, byte2, -⟩ := letters
  rw [flagReservedValid, Bool.not_eq_true']
  exact byte2.bit5_eq_false_iff

/-- For a TYPE of four letters the ALPHA half of VALID holds, and RESERVED_VALID decides (R26). -/
theorem flagValid_eq_of_fourLetters {t : Word} (letters : FourLetters t) : flagValid t = flagReservedValid t := by
  rw [flagValid, (allLetters_iff t).mpr letters, Bool.true_and]

end Sys2Proof.Machine
end

section
/-! PROOFS. The obligations about NOP, TCHK and the chunk-type predicates (40_control_and_type.md). -/

namespace Sys2Proof.Machine

/-- Settles O8: NOP is the success outcome and nothing more, and reset leaves STATUS and EINFO at 0 already. -/
theorem nopClearsResult : Obligations.NopClearsResult :=
  ⟨by decide, exec_nop, exec_nop State.reset⟩

/-- Settles O9: the letter test decides between success and E_TYPE, and it is bit 4 of FLAGS. -/
theorem tchkChecksLetters : Obligations.TchkChecksLetters := by
  refine ⟨by decide, fun s => ⟨exec_tchk_of_fourLetters, exec_tchk_of_not_fourLetters, ?_⟩⟩
  obtain ⟨-, -, -, -, alpha, -⟩ := flagsOf_bits s.type
  rw [readReg_flags, alpha, allLetters_iff]

/-- Settles O11: a successful TCHK gives four letters, and among letters bit 5 of byte 2 is its case; the two fixture
values are those of `flagsArePredicatesOfType`. -/
theorem typePredicatesOfLetters : Obligations.TypePredicatesOfLetters := by
  obtain ⟨-, -, fixtureRuSt, fixtureRust, -⟩ := flagsArePredicatesOfType
  refine ⟨fun s t run => ?_, fixtureRuSt, fixtureRust⟩
  have passed := status_eq_zero_iff_of_exec_tchk run
  refine ⟨passed, fun success => ?_⟩
  have letters := passed.mp success
  obtain ⟨-, -, reservedValid, -, -, valid⟩ := flagsOf_bits s.type
  rw [readReg_flags, reservedValid, valid]
  exact ⟨flagReservedValid_iff_of_fourLetters letters, flagValid_eq_of_fourLetters letters⟩

end Sys2Proof.Machine
end

section
/-! SUPPORT. The command word of CRCB by its fields (R57, R86), and what the CRC commands answer (R85 to R89). -/

namespace Sys2Proof

/-! ## The word of CRCB -/

@[simp] theorem zeroField_or (v w : Word) : zeroField (v ||| w) = zeroField v ||| zeroField w :=
  BitVec.extractLsb'_or

@[simp] theorem immField_or (v w : Word) : immField (v ||| w) = immField v ||| immField w :=
  BitVec.extractLsb'_or

@[simp] theorem opcodeField_or (v w : Word) : opcodeField (v ||| w) = opcodeField v ||| opcodeField w :=
  BitVec.extractLsb'_or

/-- A byte moved to bits 15:8 stands in the immediate field and in no other (R57, R60). -/
theorem byte_shiftLeft_fields (b : Byte) :
    zeroField (b.setWidth 32 <<< 8) = 0 ∧ immField (b.setWidth 32 <<< 8) = b ∧ opcodeField (b.setWidth 32 <<< 8) = 0 := by
  refine ⟨?zero, ?imm, ?opcode⟩ <;> refine BitVec.eq_of_getLsbD_eq fun i hi => ?_
  case zero =>
    simp [zeroField, BitVec.getLsbD_of_ge b (16 + i - 8) (by omega)]
  case imm =>
    simp [immField, hi, show 8 + i < 32 by omega]
  case opcode =>
    simp [opcodeField, hi]

theorem decode_crcb_word (b : Byte) : decode (0x00000011 ||| (b.setWidth 32 <<< 8)) = .ok (.crcb b) := by
  obtain ⟨zero, imm, opcode⟩ := byte_shiftLeft_fields b
  rw [decode_eq_ok_iff, zeroField_or, immField_or, opcodeField_or, zero, imm, opcode]
  exact ⟨rfl, BitVec.zero_or, rfl⟩

/-! ## The CRC commands -/

namespace Machine

theorem exec_crcinit (s : State) : exec .crcinit s = .next (succeed { s with acc := crcOnes }) := rfl

theorem exec_crcb (b : Byte) (s : State) : exec (.crcb b) s = .next (succeed { s with acc := crcStep s.acc b }) := rfl

theorem exec_crcfin (s : State) : exec .crcfin s = .next (succeed { s with crc := s.acc ^^^ crcOnes }) := rfl

/-- The two ways to fail the checks of CRCUPD, CRC32 and SER (R87, R89, R95). -/
theorem State.not_sourceInBounds_iff (s : State) :
    ¬ s.SourceInBounds ↔ s.lim.toNat > s.params.bufSize ∨ s.src.toNat + s.len.toNat > s.lim.toNat := by
  rw [not_and_or, not_le, not_le]

theorem exec_crcupd_of_inBounds {s : State} (inBounds : s.SourceInBounds) :
    exec .crcupd s = .next (succeed { s with acc := crcFold s.acc s.sourceBytes }) :=
  ((execCrcupd_cases s).resolve_right fun failed => failed.left inBounds).right

theorem exec_crcupd_of_not_inBounds {s : State} (outOfBounds : ¬ s.SourceInBounds) :
    exec .crcupd s = .next (raise .bounds 0 s) :=
  ((execCrcupd_cases s).resolve_left fun passed => outOfBounds passed.left).right

theorem exec_crc32_of_inBounds {s : State} (inBounds : s.SourceInBounds) :
    exec .crc32 s = .next (succeed { s with crc := crc32 s.sourceBytes }) :=
  ((execCrc32_cases s).resolve_right fun failed => failed.left inBounds).right

theorem exec_crc32_of_not_inBounds {s : State} (outOfBounds : ¬ s.SourceInBounds) :
    exec .crc32 s = .next (raise .bounds 0 s) :=
  ((execCrc32_cases s).resolve_left fun passed => outOfBounds passed.left).right

end Machine

end Sys2Proof
end

section
/-! PROOFS. The obligations about the effects of the five CRC commands (41_crc.md). -/

namespace Sys2Proof.Machine

/-- Settles O12: CRCINIT stores the initial value and succeeds. -/
theorem crcinitSetsAcc : Obligations.CrcinitSetsAcc :=
  ⟨by decide, exec_crcinit⟩

/-- Settles O13: the byte stands in the immediate field alone, so the word is CRCB's, and CRCB feeds it to ACC. -/
theorem crcbFeedsByte : Obligations.CrcbFeedsByte := fun b =>
  ⟨decode_crcb_word b, exec_crcb b⟩

/-- Settles O14: within bounds the range is folded into ACC; out of bounds, by LIM or by the range, E_BOUNDS is raised. -/
theorem crcupdFeedsRange : Obligations.CrcupdFeedsRange :=
  ⟨by decide, fun s =>
    ⟨fun limInBuf rangeBelowLim => exec_crcupd_of_inBounds ⟨limInBuf, rangeBelowLim⟩,
      fun outOfBounds => exec_crcupd_of_not_inBounds (s.not_sourceInBounds_iff.mpr outOfBounds)⟩⟩

/-- Settles O15: CRCFIN complements ACC into CRC and succeeds. -/
theorem crcfinFinishes : Obligations.CrcfinFinishes :=
  ⟨by decide, exec_crcfin⟩

/-- Settles O16: within bounds the checksum is the fold from all ones, complemented; out of bounds, by LIM or by the range,
E_BOUNDS is raised. -/
theorem crc32ChecksumsRange : Obligations.Crc32ChecksumsRange :=
  ⟨by decide, fun s =>
    ⟨fun limInBuf rangeBelowLim => exec_crc32_of_inBounds ⟨limInBuf, rangeBelowLim⟩,
      fun outOfBounds => exec_crc32_of_not_inBounds (s.not_sourceInBounds_iff.mpr outOfBounds)⟩⟩

end Sys2Proof.Machine
end

section
/-! SUPPORT. What SER answers (R95): each failing check by its own condition, the fields and the BUF of a successful SER, and
that STATUS 0 means a successful SER. -/

namespace Sys2Proof.Machine

/-! ## The checks -/

/-- No check of SER against LIM and BUF_SIZE fails: the payload lies below LIM, and the record fits in BUF (R95). -/
abbrev State.SerInBounds (s : State) : Prop :=
  s.SourceInBounds ∧ s.dst.toNat + encodedLength s.len.toNat ≤ s.params.bufSize

/-- The three causes of E_BOUNDS (R95), the sum written as R95 writes it. -/
theorem State.not_serInBounds_iff (s : State) :
    ¬ s.SerInBounds ↔ s.lim.toNat > s.params.bufSize ∨ s.src.toNat + s.len.toNat > s.lim.toNat ∨
      s.dst.toNat + s.len.toNat + 12 > s.params.bufSize := by
  rw [not_and_or, State.not_sourceInBounds_iff, or_assoc, not_le, encodedLength, Nat.add_assoc]

/-- The overlap check, the sum written as R95 writes it. -/
theorem State.serOverlap_iff (s : State) :
    s.SerOverlap ↔ 0 < s.len.toNat ∧ s.src.toNat < s.dst.toNat + s.len.toNat + 12 ∧
      s.dst.toNat < s.src.toNat + s.len.toNat := by
  rw [State.SerOverlap, encodedLength, Nat.add_assoc]

theorem exec_ser_of_not_inBounds {s : State} (outOfBounds : ¬ s.SerInBounds) :
    exec .ser s = .next (raise .bounds 0 s) := by
  obtain ⟨-, run⟩ | ⟨source, room, -⟩ | ⟨source, room, -⟩ | ⟨source, room, -⟩ := execSer_cases s
  · exact run
  all_goals exact absurd ⟨source, room⟩ outOfBounds

/-- Within bounds the answer of SER turns on the letters, then on the overlap (R139). -/
theorem exec_ser_of_inBounds {s : State} (inBounds : s.SerInBounds) :
    exec .ser s =
      .next (if ¬ FourLetters s.type then raise .type s.type s
        else if s.SerOverlap then raise .overlap 0 s
        else serCommit s) := by
  obtain ⟨source, room⟩ := inBounds
  rw [exec, execSer, if_neg (not_not.mpr source), if_neg (not_lt.mpr room)]
  simp only [allLetters_iff]

/-- STATUS is 0 only after a SER that passed every check. -/
theorem eq_serCommit_of_exec_ser {s t : State} (run : exec .ser s = .next t) (success : t.status = 0) :
    s.SerInBounds ∧ FourLetters s.type ∧ ¬ s.SerOverlap ∧ t = serCommit s := by
  have raised (e : Err) (info : Word) (nonzero : e.code ≠ 0) (failed : exec .ser s = .next (raise e info s)) : False := by
    cases failed.symm.trans run
    exact nonzero success
  obtain ⟨-, failed⟩ | ⟨-, -, -, failed⟩ | ⟨-, -, -, -, failed⟩ | ⟨source, room, letters, apart, done⟩ := execSer_cases s
  · exact (raised .bounds _ (by decide) failed).elim
  · exact (raised .type _ (by decide) failed).elim
  · exact (raised .overlap _ (by decide) failed).elim
  · cases done.symm.trans run
    exact ⟨⟨source, room⟩, (allLetters_iff s.type).mp letters, apart, rfl⟩

/-! ## The registers after a successful SER -/

@[simp] theorem serCommit_crc (s : State) : (serCommit s).crc = crc32 (bytesBe32 s.type ++ s.sourceBytes) := rfl

/-- The registers that a successful SER keeps, and its STATUS and EINFO. -/
theorem serCommit_frame (s : State) :
    serCommit s = { s with
      mem := (serCommit s).mem, crc := (serCommit s).crc, elen := (serCommit s).elen, dst := (serCommit s).dst
      status := 0, einfo := 0 } := rfl

/-- With legal parameters the new DST is not cut: the record ends inside BUF (R95). -/
theorem toNat_serCommit_dst {s : State} (legal : s.params.wf = true) (inBounds : s.SerInBounds) :
    (serCommit s).dst.toNat = s.dst.toNat + encodedLength s.len.toNat :=
  (BitVec.toNat_ofNat _ _).trans (Nat.mod_eq_of_lt (inBounds.right.trans_lt (bufSize_lt_of_wf legal)))

/-- With legal parameters the new ELEN is not cut either: it is at most the new DST. -/
theorem toNat_serCommit_elen {s : State} (legal : s.params.wf = true) (inBounds : s.SerInBounds) :
    (serCommit s).elen.toNat = encodedLength s.len.toNat := by
  have fits : encodedLength s.len.toNat ≤ s.params.bufSize := (Nat.le_add_left _ _).trans inBounds.right
  exact (BitVec.toNat_ofNat _ _).trans (Nat.mod_eq_of_lt (fits.trans_lt (bufSize_lt_of_wf legal)))

/-! ## BUF after a successful SER -/

theorem serCommit_mem (s : State) :
    (serCommit s).mem = s.mem.writeRecord s.dst.toNat s.len s.type s.sourceBytes (serCommit s).crc := rfl

/-- The four writes leave the record of R93, its CRC the new value of the register. -/
theorem readBytes_serCommit (s : State) :
    (serCommit s).mem.readBytes s.dst.toNat (encodedLength s.len.toNat) =
      bytesBe32 s.len ++ bytesBe32 s.type ++ s.sourceBytes ++ bytesBe32 (serCommit s).crc := by
  have recordLength : (bytesBe32 s.len ++ bytesBe32 s.type ++ s.sourceBytes ++ bytesBe32 (serCommit s).crc).length =
      encodedLength s.len.toNat := by
    simp only [List.length_append, length_bytesBe32, State.length_sourceBytes, encodedLength]
    omega
  rw [← recordLength, serCommit_mem, Mem.writeRecord_eq _ _ _ _ _ _ s.length_sourceBytes, Mem.readBytes_writeBytes]

theorem read_serCommit_outside {s : State} {a : Nat}
    (outside : a < s.dst.toNat ∨ s.dst.toNat + encodedLength s.len.toNat ≤ a) :
    (serCommit s).mem.read a = s.mem.read a := by
  rw [serCommit_mem, Mem.read_writeRecord_outside _ _ _ s.length_sourceBytes outside]

end Sys2Proof.Machine
end

section
/-! PROOFS. The obligations about the record that SER writes (42_serialize.md). -/

namespace Sys2Proof.Machine

/-- Settles O23: out of bounds SER raises E_BOUNDS; within bounds the letters and then the overlap decide; a SER that passes
both leaves `serCommit`, whose sums fit in 32 bits because the record ends inside BUF. -/
theorem serWritesTheRecord : Obligations.SerWritesTheRecord := by
  refine ⟨by decide, fun s legal => ⟨fun outOfBounds => ?bounds, fun limInBuf payloadBelowLim recordInBuf => ?passed⟩⟩
  case bounds =>
    exact exec_ser_of_not_inBounds (s.not_serInBounds_iff.mpr outOfBounds)
  case passed =>
    have inBounds : s.SerInBounds := ⟨⟨limInBuf, payloadBelowLim⟩, (Nat.add_assoc _ _ _).symm.trans_le recordInBuf⟩
    rw [exec_ser_of_inBounds inBounds, ← s.serOverlap_iff]
    refine ⟨fun notLetters => ?type, fun letters overlap => ?overlap, fun letters apart =>
      ⟨serCommit s, ?done, serCommit_frame s, serCommit_crc s, toNat_serCommit_elen legal inBounds,
        toNat_serCommit_dst legal inBounds, readBytes_serCommit s, fun a outside => read_serCommit_outside outside⟩⟩
    case type => rw [if_pos notLetters]; rfl
    case overlap => rw [if_neg (not_not.mpr letters), if_pos overlap]; rfl
    case done => rw [if_neg (not_not.mpr letters), if_neg apart]

/-- Settles O24: a SER with STATUS 0 is `serCommit`, whose CRC and record name TYPE, LEN and the payload and nothing else. -/
theorem serRecordDependsOnTypeAndPayload : Obligations.SerRecordDependsOnTypeAndPayload := by
  intro s1 s2 t1 t2 sameType sameLen (samePayload : s1.sourceBytes = s2.sourceBytes) run1 success1 run2 success2
  obtain ⟨-, -, -, rfl⟩ := eq_serCommit_of_exec_ser run1 success1
  obtain ⟨-, -, -, rfl⟩ := eq_serCommit_of_exec_ser run2 success2
  have sameCrc : (serCommit s1).crc = (serCommit s2).crc := by
    rw [serCommit_crc, serCommit_crc, sameType, samePayload]
  refine ⟨sameCrc, ?_⟩
  calc (serCommit s1).mem.readBytes s1.dst.toNat (encodedLength s1.len.toNat)
      = bytesBe32 s1.len ++ bytesBe32 s1.type ++ s1.sourceBytes ++ bytesBe32 (serCommit s1).crc := readBytes_serCommit s1
    _ = bytesBe32 s2.len ++ bytesBe32 s2.type ++ s2.sourceBytes ++ bytesBe32 (serCommit s2).crc := by
        rw [sameLen, sameType, samePayload, sameCrc]
    _ = (serCommit s2).mem.readBytes s2.dst.toNat (encodedLength s2.len.toNat) := (readBytes_serCommit s2).symm

end Sys2Proof.Machine
end

section
/-! SUPPORT. What DES answers (R100): each failing check by its own condition, and the registers after a successful DES. -/

namespace Sys2Proof.Machine

/-! ## The checks -/

/-- Neither hardware guard of DES fails: the input ends inside BUF, and SRC does not stand after its end (R100). -/
abbrev State.InputInBounds (s : State) : Prop :=
  s.lim.toNat ≤ s.params.bufSize ∧ s.src.toNat ≤ s.lim.toNat

/-- The two causes of E_BOUNDS (R100). -/
theorem State.not_inputInBounds_iff (s : State) :
    ¬ s.InputInBounds ↔ s.lim.toNat > s.params.bufSize ∨ s.src.toNat > s.lim.toNat := by
  rw [not_and_or, not_le, not_le]

theorem exec_des_of_not_inBounds {s : State} (outOfBounds : ¬ s.InputInBounds) :
    exec .des s = .next (raise .bounds 0 s) := by
  obtain ⟨-, run⟩ | ⟨lim, src, -⟩ | ⟨lim, src, -⟩ | ⟨lim, src, -⟩ | ⟨lim, src, -⟩ := execDes_cases s
  · exact run
  all_goals exact absurd ⟨lim, src⟩ outOfBounds

/-- Within bounds a record cut off by LIM, in its length field or after it, is E_TRUNC (R100, steps 1 and 3). -/
theorem exec_des_of_truncated {s : State} (inBounds : s.InputInBounds)
    (truncated : s.avail < 4 ∨ s.avail < encodedLength s.wireLength) :
    exec .des s = .next (raise .trunc (BitVec.ofNat 32 s.avail) s) := by
  have notComplete : ¬ encodedLength s.wireLength ≤ s.avail := by
    unfold encodedLength at truncated ⊢
    omega
  obtain ⟨outOfBounds, -⟩ | ⟨-, -, -, run⟩ | ⟨-, -, complete, -⟩ | ⟨-, -, complete, -⟩ | ⟨-, -, complete, -⟩ :=
    execDes_cases s
  · exact absurd inBounds (s.not_inputInBounds_iff.mpr outOfBounds)
  · exact run
  all_goals exact absurd complete notComplete

/-- For a complete record the answer of DES turns on the letters, then on the CRC (R139). -/
theorem exec_des_of_complete {s : State} (inBounds : s.InputInBounds)
    (complete : encodedLength s.wireLength ≤ s.avail) :
    exec .des s =
      .next (if ¬ FourLetters s.wireType then raise .type s.wireType s
        else if s.recomputedCrc ≠ s.wireCrc then raise .crc s.recomputedCrc s
        else desCommit s) := by
  obtain ⟨limInBuf, srcBelowLim⟩ := inBounds
  have lengthField : 4 ≤ s.avail := le_trans (by unfold encodedLength; omega) complete
  rw [exec, execDes, if_neg (not_lt.mpr limInBuf), if_neg (not_lt.mpr srcBelowLim), if_neg (not_lt.mpr lengthField),
    if_neg (not_lt.mpr complete)]
  simp only [allLetters_iff]

/-! ## The registers after a successful DES -/

/-- The registers that a successful DES keeps, BUF, and the registers whose new value is no sum. -/
theorem desCommit_frame (s : State) :
    desCommit s = { s with
      type := s.wireType, crc := s.recomputedCrc, len := (desCommit s).len, pay := (desCommit s).pay
      elen := (desCommit s).elen, src := (desCommit s).src, status := 0, einfo := 0 } := rfl

theorem toNat_desCommit_len (s : State) : (desCommit s).len.toNat = s.wireLength :=
  (BitVec.toNat_ofNat _ _).trans (Nat.mod_eq_of_lt (BitVec.isLt _))

/-- With legal parameters the end of a complete record is an address that a register holds: it lies inside BUF (R100). -/
theorem recordEnd_lt {s : State} (legal : s.params.wf = true) (inBounds : s.InputInBounds)
    (complete : encodedLength s.wireLength ≤ s.avail) :
    s.src.toNat + encodedLength s.wireLength < 2 ^ 32 := by
  obtain ⟨limInBuf, srcBelowLim⟩ := inBounds
  calc s.src.toNat + encodedLength s.wireLength
      ≤ s.src.toNat + s.avail := Nat.add_le_add_left complete _
    _ = s.lim.toNat := Nat.add_sub_cancel' srcBelowLim
    _ ≤ s.params.bufSize := limInBuf
    _ < 2 ^ 32 := bufSize_lt_of_wf legal

/-- PAY, ELEN and the new SRC are at most the record's end, so none of them is cut. -/
theorem toNat_desCommit_sums {s : State} (legal : s.params.wf = true) (inBounds : s.InputInBounds)
    (complete : encodedLength s.wireLength ≤ s.avail) :
    (desCommit s).pay.toNat = s.src.toNat + 8 ∧ (desCommit s).elen.toNat = encodedLength s.wireLength ∧
      (desCommit s).src.toNat = s.src.toNat + encodedLength s.wireLength := by
  have fits {n : Nat} (h : n ≤ s.src.toNat + encodedLength s.wireLength) : (BitVec.ofNat 32 n).toNat = n :=
    (BitVec.toNat_ofNat _ _).trans (Nat.mod_eq_of_lt (h.trans_lt (recordEnd_lt legal inBounds complete)))
  exact ⟨fits (by unfold encodedLength; omega), fits (Nat.le_add_left _ _), fits le_rfl⟩

end Sys2Proof.Machine
end

section
/-! PROOFS. The obligation about the checks and the effect of DES (43_deserialize.md). -/

namespace Sys2Proof.Machine

/-- Settles O25: out of bounds DES raises E_BOUNDS, and on a truncated record E_TRUNC; on a complete one the letters and then
the CRC decide; a DES that passes both leaves `desCommit`, whose sums fit in 32 bits because the record ends inside BUF. -/
theorem desParsesTheRecord : Obligations.DesParsesTheRecord := by
  refine ⟨by decide, fun s legal L avail type sum (hL : L = s.wireLength) (hAvail : avail = s.avail)
    (hType : type = s.wireType) hSum => ?_⟩
  subst hL hAvail hType
  obtain rfl : sum = s.recomputedCrc := hSum
  refine ⟨fun outOfBounds => exec_des_of_not_inBounds (s.not_inputInBounds_iff.mpr outOfBounds),
    fun limInBuf srcBelowLim => ⟨exec_des_of_truncated ⟨limInBuf, srcBelowLim⟩, fun complete => ?complete⟩⟩
  have inBounds : s.InputInBounds := ⟨limInBuf, srcBelowLim⟩
  obtain ⟨pay, elen, src⟩ := toNat_desCommit_sums legal inBounds complete
  rw [exec_des_of_complete inBounds complete]
  refine ⟨fun notLetters => ?type, fun letters (mismatch : _ ≠ s.wireCrc) => ?crc,
    fun letters (verified : _ = s.wireCrc) => ⟨desCommit s, ?done, desCommit_frame s, toNat_desCommit_len s, pay, elen,
      src.trans (Nat.add_assoc _ _ _).symm⟩⟩
  case type => rw [if_pos notLetters]; rfl
  case crc => rw [if_neg (not_not.mpr letters), if_pos mismatch]; rfl
  case done => rw [if_neg (not_not.mpr letters), if_neg (not_not.mpr verified)]

end Sys2Proof.Machine
end

section
/-! SUPPORT. What every command answers, said once for the nine of them: the error outcome with the context value of R130 to
R135, or the success outcome; and what keeps STATUS and EINFO (R140). -/

namespace Sys2Proof.Machine

/-! ## Codes and context values -/

/-- The codes of R129 are distinct, so a code in STATUS names its error. -/
theorem Err.code_injective : Function.Injective Err.code := fun d e => by
  cases d <;> cases e <;> decide

theorem Err.code_ne_zero (e : Err) : e.code ≠ 0 := by
  cases e <;> decide

/-- The context value of an error that command `i` raises in state `s` (R130 to R135): for E_TYPE, DES reports the type on the
wire and the others report TYPE; for E_ILLEGAL it is the command word, and no command raises it. -/
def errorContext (i : Instr) (s : State) : Err → Word
  | .type => if i = .des then s.wireType else s.type
  | .trunc => BitVec.ofNat 32 s.avail
  | .crc => s.recomputedCrc
  | .bounds => 0
  | .overlap => 0
  | .illegal => encode i

/-- The count of available bytes is a register's value: it is at most LIM. -/
theorem toNat_ofNat_avail (s : State) : (BitVec.ofNat 32 s.avail).toNat = s.lim.toNat - s.src.toNat :=
  (BitVec.toNat_ofNat _ _).trans (Nat.mod_eq_of_lt ((Nat.sub_le _ _).trans_lt s.lim.isLt))

theorem zero_mem_resultCodes (i : Instr) : 0 ∈ resultCodes i := by
  cases i <;> exact List.mem_cons_self

theorem resultCodes_subset_legalStatus (i : Instr) : resultCodes i ⊆ legalStatus := by
  cases i with
  | crcb b => rw [resultCodes]; decide
  | _ => decide

/-! ## The outcome of a command -/

/-- Every command succeeds, or raises one of the errors in its check order (R139) with that error's context value. -/
theorem exec_cases (i : Instr) (s : State) :
    (∃ t, exec i s = .next (succeed t)) ∨
    (∃ e : Err, e.code ∈ resultCodes i ∧ exec i s = .next (raise e (errorContext i s e) s)) := by
  cases i with
  | nop => exact .inl ⟨_, exec_nop s⟩
  | tchk =>
    obtain ⟨-, run⟩ | ⟨-, run⟩ := execTchk_cases s
    · exact .inl ⟨_, run⟩
    · exact .inr ⟨.type, by decide, run⟩
  | crcinit => exact .inl ⟨_, exec_crcinit s⟩
  | crcb b => exact .inl ⟨_, exec_crcb b s⟩
  | crcupd =>
    obtain ⟨-, run⟩ | ⟨-, run⟩ := execCrcupd_cases s
    · exact .inl ⟨_, run⟩
    · exact .inr ⟨.bounds, by decide, run⟩
  | crcfin => exact .inl ⟨_, exec_crcfin s⟩
  | crc32 =>
    obtain ⟨-, run⟩ | ⟨-, run⟩ := execCrc32_cases s
    · exact .inl ⟨_, run⟩
    · exact .inr ⟨.bounds, by decide, run⟩
  | ser =>
    obtain ⟨-, run⟩ | ⟨-, -, -, run⟩ | ⟨-, -, -, -, run⟩ | ⟨-, -, -, -, run⟩ := execSer_cases s
    · exact .inr ⟨.bounds, by decide, run⟩
    · exact .inr ⟨.type, by decide, run⟩
    · exact .inr ⟨.overlap, by decide, run⟩
    · exact .inl ⟨_, run⟩
  | des =>
    obtain ⟨-, run⟩ | ⟨-, -, -, run⟩ | ⟨-, -, -, -, run⟩ | ⟨-, -, -, -, -, run⟩ | ⟨-, -, -, -, -, run⟩ := execDes_cases s
    · exact .inr ⟨.bounds, by decide, run⟩
    · exact .inr ⟨.trunc, by decide, run⟩
    · exact .inr ⟨.type, by decide, run⟩
    · exact .inr ⟨.crc, by decide, run⟩
    · exact .inl ⟨_, run⟩

theorem status_mem_resultCodes {i : Instr} {s t : State} (run : exec i s = .next t) : t.status ∈ resultCodes i := by
  obtain ⟨u, succeeded⟩ | ⟨e, listed, raised⟩ := exec_cases i s
  · cases succeeded.symm.trans run
    exact zero_mem_resultCodes i
  · cases raised.symm.trans run
    exact listed

/-! ## Earlier results (R140) -/

@[simp] theorem succeed_report (code info : Word) (s : State) : succeed (report code info s) = succeed s := rfl

@[simp] theorem raise_report (e : Err) (info code info' : Word) (s : State) :
    raise e info (report code info' s) = raise e info s := rfl

/-- No command reads STATUS or EINFO, and every outcome overwrites both. -/
theorem exec_report (i : Instr) (code info : Word) (s : State) : exec i (report code info s) = exec i s := by
  cases i <;> rfl

theorem runCommand_report (w code info : Word) (s : State) : runCommand w (report code info s) = runCommand w s := by
  cases decoded : decode w with
  | ok i => rw [runCommand, runCommand, decoded]; exact exec_report i code info s
  | error r => rw [runCommand_of_error decoded, runCommand_of_error decoded, raise_report]

/-! ## Host accesses keep the result (R140) -/

/-- If the action is done, STATUS and EINFO stand as they stood in `s`; a command word and a refusal leave no state to
compare. -/
def Performed.KeepsResult (s : State) : Performed → Prop
  | .done t => t.status = s.status ∧ t.einfo = s.einfo
  | .command _ _ => True
  | .refuse _ => True

theorem performRegWrite_keepsResult (width : Width) (o : Nat) (v : Word) (s : State) :
    (performRegWrite width o v s).KeepsResult s := by
  obtain run | ⟨r, -, run⟩ | ⟨q, run⟩ := performRegWrite_cases width o v s <;> rw [run]
  · trivial
  · exact ⟨writeReg_status r v s, writeReg_einfo r v s⟩
  · trivial

theorem performRegRead_keepsResult (width : Width) (o : Nat) (s : State) :
    (performRegRead width o s).KeepsResult s := by
  obtain ⟨reply, run⟩ | ⟨q, run⟩ := performRegRead_cases width o s <;> rw [run]
  · exact ⟨answer_status reply s, answer_einfo reply s⟩
  · trivial

theorem performBufWrite_keepsResult (i : Nat) (v : Byte) (s : State) : (performBufWrite i v s).KeepsResult s := by
  obtain ⟨-, run⟩ | ⟨q, run⟩ := performBufWrite_cases i v s <;> rw [run]
  · exact ⟨rfl, rfl⟩
  · trivial

theorem performBufRead_keepsResult (i : Nat) (s : State) : (performBufRead i s).KeepsResult s := by
  obtain ⟨reply, run⟩ | ⟨q, run⟩ := performBufRead_cases i s <;> rw [run]
  · exact ⟨answer_status reply s, answer_einfo reply s⟩
  · trivial

/-- A bus write is a register write, a BUF write or a refusal (R47). -/
theorem performBusWrite_keepsResult (width : Width) (addr : Nat) (v : Word) (s : State) :
    (performBusWrite width addr v s).KeepsResult s := by
  unfold performBusWrite
  split_ifs
  · exact performRegWrite_keepsResult width _ v s
  · exact performBufWrite_keepsResult _ _ s
  all_goals trivial

/-- A bus read is a register read, a BUF read or a refusal (R47). -/
theorem performBusRead_keepsResult (width : Width) (addr : Nat) (s : State) :
    (performBusRead width addr s).KeepsResult s := by
  unfold performBusRead
  split_ifs
  · exact performRegRead_keepsResult width _ s
  · exact performBufRead_keepsResult _ s
  all_goals trivial

/-- Without a command only a reset changes STATUS and EINFO. -/
theorem perform_keepsResult {a : HostAction} (notReset : a ≠ .reset) (s : State) : (perform a s).KeepsResult s := by
  cases a with
  | regWrite width o v => exact performRegWrite_keepsResult width o v s
  | regRead width o => exact performRegRead_keepsResult width o s
  | bufWrite i v => exact performBufWrite_keepsResult i v s
  | bufRead i => exact performBufRead_keepsResult i s
  | busWrite width addr v => exact performBusWrite_keepsResult width addr v s
  | busRead width addr => exact performBusRead_keepsResult width addr s
  | reset => exact absurd rfl notReset

end Sys2Proof.Machine
end

section
/-! PROOFS. The obligations about errors: what they change, which codes they write, how long they stay (60_exceptions.md). -/

namespace Sys2Proof.Machine

/-- Settles O31: a command that does not succeed raises one error with its context value (`exec_cases`), and the code in STATUS
names that error. -/
theorem errorsArePrecise : Obligations.ErrorsArePrecise := by
  refine ⟨fun i s => ?command, fun w r s rejected => runCommand_of_error rejected s⟩
  obtain ⟨t, succeeded⟩ | ⟨e, -, raised⟩ := exec_cases i s
  · exact ⟨succeed t, succeeded, fun _ => rfl, fun failed => absurd rfl failed, by simp⟩
  · have sameContext {d : Err} (code : e.code = d.code) : errorContext i s e = errorContext i s d :=
      congrArg _ (Err.code_injective code)
    refine ⟨raise e (errorContext i s e) s, raised, fun success => absurd success e.code_ne_zero, fun _ => rfl,
      fun code => sameContext (d := .type) code,
      fun code => (congrArg BitVec.toNat (sameContext (d := .trunc) code)).trans (toNat_ofNat_avail s),
      fun code => sameContext (d := .crc) code, ?zeroContext⟩
    rintro (code | code)
    · exact sameContext (d := .bounds) code
    · exact sameContext (d := .overlap) code

/-- Settles O32: a command leaves a code of its own check order, each of those is a legal one, and an illegal word leaves 10. -/
theorem onlyListedCodesAreWritten : Obligations.OnlyListedCodesAreWritten := by
  refine ⟨fun i s t run => status_mem_resultCodes run, fun w s t run => ?word⟩
  cases decoded : decode w with
  | ok i =>
    rw [runCommand, decoded] at run
    exact resultCodes_subset_legalStatus i (status_mem_resultCodes run)
  | error r =>
    cases (runCommand_of_error decoded s).symm.trans run
    rw [raise_status]
    decide

/-- Settles O33: no command reads an earlier result (`runCommand_report`), no other host action but a reset changes it
(`perform_keepsResult`), and NOP is the success outcome and nothing more. -/
theorem errorsDoNotStick : Obligations.ErrorsDoNotStick := by
  refine ⟨fun w s st ei => runCommand_report w st ei s, fun a s t notReset run => ?kept, exec_nop⟩
  have kept := perform_keepsResult notReset s
  rwa [run] at kept

end Sys2Proof.Machine
end

section
/-! SUPPORT. The fields of an encoded command, and the decoder against the encoder (R57, R65). -/

namespace Sys2Proof

/-- The encoder puts each field in its place (R57). -/
theorem encode_fields (i : Instr) :
    zeroField (encode i) = 0 ∧ immField (encode i) = i.imm ∧ opcodeField (encode i) = i.opcode := by
  have placed : Laws.EncodingShape.Statement i := by
    cases i with
    | nop => exact Laws.EncodingShape.nop
    | tchk => exact Laws.EncodingShape.tchk
    | crcinit => exact Laws.EncodingShape.crcinit
    | crcb b => exact Laws.EncodingShape.crcb b
    | crcupd => exact Laws.EncodingShape.crcupd
    | crcfin => exact Laws.EncodingShape.crcfin
    | crc32 => exact Laws.EncodingShape.crc32
    | ser => exact Laws.EncodingShape.ser
    | des => exact Laws.EncodingShape.des
  obtain ⟨-, opcode, imm, zero, -⟩ := placed
  exact ⟨zero, imm, opcode⟩

/-- A word decodes to a command exactly when it is that command's word. -/
theorem decode_eq_ok_iff_encode (w : Word) (i : Instr) : decode w = .ok i ↔ encode i = w := by
  obtain ⟨zero, imm, opcode⟩ := encode_fields i
  rw [decode_eq_ok_iff, eq_comm (a := encode i), word_eq_iff_fields w, zero, imm, opcode]

@[simp] theorem decode_encode (i : Instr) : decode (encode i) = .ok i :=
  (decode_eq_ok_iff_encode _ i).mpr rfl

/-- The host's view of a word is the decoder's (R65). -/
theorem decode_of_decodeTableWord {nbits w : Nat} {i : Instr} (h : decodeTableWord nbits w = some i) :
    decode (BitVec.ofNat 32 (w % 2 ^ nbits)) = .ok i := by
  unfold decodeTableWord at h
  split_ifs at h
  split at h
  next decoded =>
    cases h
    exact decoded
  next => cases h

end Sys2Proof
end

section
/-! PROOFS. The obligations about decoding and encoding (30_encoding.md). -/

namespace Sys2Proof.Machine

/-- Settles O1: a word is a command exactly when it has the command's three fields, and those are the fields the encoder
puts side by side. -/
theorem decodeInvertsEncode : Obligations.DecodeInvertsEncode :=
  decode_eq_ok_iff_encode

/-- Settles O4: the ten words are decoded by computation. -/
theorem sampleWordsDecode : Obligations.SampleWordsDecode := by
  unfold Obligations.SampleWordsDecode
  decide

end Sys2Proof.Machine
end

section
/-! SUPPORT. What a step does with the host's next action, one lemma for each form of action (R7, R29, R30). -/

namespace Sys2Proof.Machine

/-- A step performs the next action in the state with that action taken off the list and no reply yet (R7). -/
theorem step_cons {s : State} {a : HostAction} {rest : List HostAction} (next : s.actions = a :: rest) :
    step s = conclude (perform a { s with actions := rest, reply := .nothing }) := by
  rw [step, nextAction_cons next]

theorem runCommand_of_ok {w : Word} {i : Instr} (h : decode w = .ok i) (s : State) : runCommand w s = exec i s := by
  rw [runCommand, h]

/-- A command word that the host issues runs to its end in that same step (R29). -/
theorem step_issue {s : State} {w : Word} {rest : List HostAction} (next : s.actions = issue w :: rest) :
    step s = runCommand w { s with actions := rest, reply := .nothing } := by
  rw [step_cons next, issue, perform, performRegWrite, accessedReg_offset]
  exact congrArg conclude (if_pos rfl)

/-- A word write to a register other than CMD is `writeReg` of that register (R30). -/
theorem step_regWrite {s : State} {r : Reg} (notCmd : r ≠ .cmd) {v : Word} {rest : List HostAction}
    (next : s.actions = .regWrite .word r.offset v :: rest) :
    step s = .next (writeReg r v { s with actions := rest, reply := .nothing }) := by
  rw [step_cons next, perform, performRegWrite, accessedReg_offset]
  exact congrArg conclude (if_neg notCmd)

/-- A word read replies with the register (R30). -/
theorem step_regRead {s : State} (r : Reg) {rest : List HostAction}
    (next : s.actions = .regRead .word r.offset :: rest) :
    step s = .next { s with actions := rest, reply := .word (readReg r s) } := by
  rw [step_cons next, perform, performRegRead, accessedReg_offset]
  cases r <;> rfl

/-- The registers with their offsets, in the order of R13's table. -/
theorem registerTable_eq_map (s : State) :
    [(0x00, s.type), (0x04, s.len), (0x08, s.src), (0x0C, s.lim), (0x10, s.dst), (0x14, s.crc), (0x18, s.elen),
      (0x1C, s.pay), (0x20, s.acc), (0x24, flagsOf s.type), (0x28, s.status), (0x2C, s.einfo), (0x30, 0)] =
    allRegs.map fun r => (r.offset, readReg r s) := rfl

end Sys2Proof.Machine
end

section
/-! PROOFS. The obligations about a step and the host's accesses (10_state.md, 70_reset_and_hazards.md). -/

namespace Sys2Proof.Machine

/-- Settles O5: the write is the one that issues `w`, and the step is the run of that command word. -/
theorem stepRunsDecodedCommand : Obligations.StepRunsDecodedCommand := by
  intro s w rest (next : s.actions = issue w :: rest)
  rw [step_issue next]
  exact ⟨fun i decoded => runCommand_of_ok decoded _, fun r rejected => runCommand_of_error rejected _⟩

/-- Settles O6: placing a word is issuing it, and taking it off the list gives back the list of before. -/
theorem placedWordRunsNext : Obligations.PlacedWordRunsNext := by
  intro s w i decoded
  rw [step_issue (s := s.withFetchWord 32 w) rfl, runCommand_of_ok (decode_of_decodeTableWord decoded)]
  rfl

/-- Settles O7: with nothing listed there is no next action, and the step is the idle one. -/
theorem idleEngineKeepsState : Obligations.IdleEngineKeepsState := by
  intro s noAction
  rw [step, nextAction_nil noAction]

/-- Settles O41: the reset event keeps BUF, the parameters, the list and the reply of the state in which it is performed. -/
theorem resetActionResetsRegisters : Obligations.ResetActionResetsRegisters := by
  intro s rest next
  rw [step_cons next]
  rfl

/-- Settles O43: each line of the statement's table is a register with its offset, and a read replies with that register. -/
theorem hostReadsRegisters : Obligations.HostReadsRegisters := by
  intro s rest o v line next
  rw [registerTable_eq_map] at line
  obtain ⟨r, -, rfl, rfl⟩ : ∃ r ∈ allRegs, r.offset = o ∧ readReg r s = v := by simpa using line
  exact step_regRead r next

/-- Settles O44: a write to an RW register is that register's update, and an RO register ignores it. -/
theorem hostWritesRegisters : Obligations.HostWritesRegisters := by
  intro s rest o v next
  have stored (r : Reg) (notCmd : r ≠ .cmd) (offset : o = r.offset) :
      step s = .next (writeReg r v { s with actions := rest, reply := .nothing }) :=
    step_regWrite notCmd (offset ▸ next)
  refine ⟨stored .type (by decide), stored .len (by decide), stored .src (by decide), stored .lim (by decide),
    stored .dst (by decide), fun readOnly => ?_⟩
  obtain ⟨r, listed, offset⟩ : ∃ r ∈ [Reg.crc, .elen, .pay, .acc, .flags, .status, .einfo], r.offset = o :=
    List.mem_map.mp readOnly
  have notCmd : r ≠ .cmd := fun cmd => absurd (cmd ▸ listed) (by decide)
  rw [stored r notCmd offset.symm, writeReg_readOnly listed]

/-- Settles O45: below BUF_SIZE the access is one write or one read of BUF; at or above it there is no such byte. -/
theorem hostAccessesBufBytes : Obligations.HostAccessesBufBytes := by
  refine fun s rest k v => ⟨fun next => ?write, fun next => ?read⟩ <;> rw [step_cons next, perform]
  case write =>
    refine ⟨fun below => ⟨{ s with mem := s.mem.write k v, actions := rest, reply := .nothing }, ?stored, rfl,
      Mem.read_write_same s.mem k v, fun a other => Mem.read_write_other s.mem v other.symm⟩, fun above => ?refused⟩
    case stored => exact congrArg conclude (if_pos below)
    case refused => exact congrArg conclude (if_neg above.not_gt)
  case read =>
    exact ⟨fun below => congrArg conclude (if_pos below), fun above => congrArg conclude (if_neg above.not_gt)⟩

end Sys2Proof.Machine
end

section
/-! SUPPORT. The checks and the success outcome of each command, said once for the nine of them (R71, R72, R85 to R89, R95,
R100, R139). -/

namespace Sys2Proof.Machine

/-! ## The checks and the success outcome -/

/-- A complete record stands between SRC and LIM, its type is four letters, and the stored CRC is the recomputed one
(R100). -/
structure State.DesPasses (s : State) : Prop where
  inBounds : s.InputInBounds
  complete : encodedLength s.wireLength ≤ s.avail
  letters : FourLetters s.wireType
  verified : s.recomputedCrc = s.wireCrc

/-- No check of command `i` fails in state `s`. -/
def State.Passes (s : State) : Instr → Prop
  | .nop => True
  | .tchk => FourLetters s.type
  | .crcinit => True
  | .crcb _ => True
  | .crcupd => s.SourceInBounds
  | .crcfin => True
  | .crc32 => s.SourceInBounds
  | .ser => s.SerInBounds ∧ FourLetters s.type ∧ ¬ s.SerOverlap
  | .des => s.DesPasses

/-- The state that command `i` leaves when all its checks pass. -/
def commit (i : Instr) (s : State) : State :=
  match i with
  | .nop => succeed s
  | .tchk => succeed s
  | .crcinit => succeed { s with acc := crcOnes }
  | .crcb b => succeed { s with acc := crcStep s.acc b }
  | .crcupd => succeed { s with acc := crcFold s.acc s.sourceBytes }
  | .crcfin => succeed { s with crc := s.acc ^^^ crcOnes }
  | .crc32 => succeed { s with crc := crc32 s.sourceBytes }
  | .ser => serCommit s
  | .des => desCommit s

@[simp] theorem commit_status (i : Instr) (s : State) : (commit i s).status = 0 := by
  cases i <;> rfl

/-- Only SER writes BUF (R31). -/
theorem commit_mem {i : Instr} (notSer : i ≠ .ser) (s : State) : (commit i s).mem = s.mem := by
  cases i with
  | ser => exact absurd rfl notSer
  | _ => rfl

/-- What no command changes: LIM, and the three fields that are the model's own. -/
theorem commit_frame (i : Instr) (s : State) :
    (commit i s).lim = s.lim ∧ (commit i s).params = s.params ∧ (commit i s).actions = s.actions ∧
      (commit i s).reply = s.reply := by
  cases i <;> exact ⟨rfl, rfl, rfl, rfl⟩

/-! ## The outcome of a command -/

/-- A context value that fits its error (R28, R130 to R135). -/
def Err.Fits (p : Params) (info : Word) : Err → Prop
  | .type => ¬ FourLetters info
  | .trunc => info.toNat ≤ p.bufSize
  | .crc => True
  | .bounds => info = 0
  | .overlap => info = 0
  | .illegal => ¬ wordLegal info = true

/-- Every command passes its checks and leaves its success state, or raises one of the errors in its check order (R139), with a
context value that fits it. -/
theorem exec_passes_or_raises (i : Instr) (s : State) :
    (s.Passes i ∧ exec i s = .next (commit i s)) ∨
    (∃ e : Err, e.code ∈ resultCodes i ∧ e.Fits s.params (errorContext i s e) ∧
      exec i s = .next (raise e (errorContext i s e) s)) := by
  cases i with
  | nop => exact .inl ⟨trivial, rfl⟩
  | tchk =>
    obtain ⟨letters, run⟩ | ⟨notLetters, run⟩ := execTchk_cases s
    · exact .inl ⟨(allLetters_iff _).mp letters, run⟩
    · exact .inr ⟨.type, by decide, (allLetters_eq_false_iff _).mp notLetters, run⟩
  | crcinit => exact .inl ⟨trivial, rfl⟩
  | crcb b => exact .inl ⟨trivial, rfl⟩
  | crcupd =>
    obtain ⟨inBounds, run⟩ | ⟨-, run⟩ := execCrcupd_cases s
    · exact .inl ⟨inBounds, run⟩
    · exact .inr ⟨.bounds, by decide, rfl, run⟩
  | crcfin => exact .inl ⟨trivial, rfl⟩
  | crc32 =>
    obtain ⟨inBounds, run⟩ | ⟨-, run⟩ := execCrc32_cases s
    · exact .inl ⟨inBounds, run⟩
    · exact .inr ⟨.bounds, by decide, rfl, run⟩
  | ser =>
    obtain ⟨-, run⟩ | ⟨-, -, notLetters, run⟩ | ⟨-, -, -, -, run⟩ | ⟨source, room, letters, apart, run⟩ := execSer_cases s
    · exact .inr ⟨.bounds, by decide, rfl, run⟩
    · exact .inr ⟨.type, by decide, (allLetters_eq_false_iff _).mp notLetters, run⟩
    · exact .inr ⟨.overlap, by decide, rfl, run⟩
    · exact .inl ⟨⟨⟨source, room⟩, (allLetters_iff _).mp letters, apart⟩, run⟩
  | des =>
    obtain ⟨-, run⟩ | ⟨lim, -, -, run⟩ | ⟨-, -, -, notLetters, run⟩ | ⟨-, -, -, -, -, run⟩ |
      ⟨lim, src, complete, letters, verified, run⟩ := execDes_cases s
    · exact .inr ⟨.bounds, by decide, rfl, run⟩
    · exact .inr ⟨.trunc, by decide, (toNat_ofNat_avail s).trans_le ((Nat.sub_le _ _).trans lim), run⟩
    · exact .inr ⟨.type, by decide, (allLetters_eq_false_iff _).mp notLetters, run⟩
    · exact .inr ⟨.crc, by decide, trivial, run⟩
    · exact .inl ⟨⟨⟨lim, src⟩, complete, (allLetters_iff _).mp letters, verified⟩, run⟩

/-- What a command that answers `t` has done. -/
theorem eq_commit_or_raise_of_exec {i : Instr} {s t : State} (run : exec i s = .next t) :
    (s.Passes i ∧ t = commit i s) ∨
    (∃ e : Err, e.Fits s.params (errorContext i s e) ∧ t = raise e (errorContext i s e) s) := by
  obtain ⟨passes, done⟩ | ⟨e, -, fits, raised⟩ := exec_passes_or_raises i s
  · cases done.symm.trans run
    exact .inl ⟨passes, rfl⟩
  · cases raised.symm.trans run
    exact .inr ⟨e, fits, rfl⟩

/-- STATUS is 0 only after a command that passed every check. -/
theorem eq_commit_of_success {i : Instr} {s t : State} (run : exec i s = .next t) (success : t.status = 0) :
    s.Passes i ∧ t = commit i s := by
  obtain done | ⟨e, -, rfl⟩ := eq_commit_or_raise_of_exec run
  · exact done
  · exact absurd success e.code_ne_zero

theorem exec_des_of_passes {s : State} (passes : s.DesPasses) : exec .des s = .next (desCommit s) := by
  rw [exec_des_of_complete passes.inBounds passes.complete, if_neg (not_not.mpr passes.letters),
    if_neg (not_not.mpr passes.verified)]

theorem exec_ser_of_passes {s : State} (passes : s.Passes .ser) : exec .ser s = .next (serCommit s) := by
  obtain ⟨inBounds, letters, apart⟩ := passes
  rw [exec_ser_of_inBounds inBounds, if_neg (not_not.mpr letters), if_neg apart]

/-! ## What a command writes -/

theorem readReg_raise {r : Reg} (operand : r ∈ operandRegs) (e : Err) (info : Word) (s : State) :
    readReg r (raise e info s) = readReg r s := by
  cases r with
  | status | einfo => exact absurd operand (by decide)
  | _ => rfl

/-- Success keeps every register of R23's table that the command's row does not mark "w". -/
theorem readReg_commit_unwritten {i : Instr} {r : Reg} (operand : r ∈ operandRegs) (unwritten : r ∉ writeSet i) (s : State) :
    readReg r (commit i s) = readReg r s := by
  cases i with
  | nop =>
    cases r with
    | flags | status | einfo => exact absurd operand (by decide)
    | _ => rfl
  | tchk =>
    cases r with
    | flags | status | einfo => exact absurd operand (by decide)
    | _ => rfl
  | crcinit =>
    cases r with
    | acc => exact absurd (by decide) unwritten
    | flags | status | einfo => exact absurd operand (by decide)
    | _ => rfl
  | crcb b =>
    cases r with
    | acc => exact absurd List.mem_cons_self unwritten
    | flags | status | einfo => exact absurd operand (by decide)
    | _ => rfl
  | crcupd =>
    cases r with
    | acc => exact absurd (by decide) unwritten
    | flags | status | einfo => exact absurd operand (by decide)
    | _ => rfl
  | crcfin =>
    cases r with
    | crc => exact absurd (by decide) unwritten
    | flags | status | einfo => exact absurd operand (by decide)
    | _ => rfl
  | crc32 =>
    cases r with
    | crc => exact absurd (by decide) unwritten
    | flags | status | einfo => exact absurd operand (by decide)
    | _ => rfl
  | ser =>
    cases r with
    | dst | crc | elen => exact absurd (by decide) unwritten
    | flags | status | einfo => exact absurd operand (by decide)
    | _ => rfl
  | des =>
    cases r with
    | type | len | src | crc | elen | pay => exact absurd (by decide) unwritten
    | flags | status | einfo => exact absurd operand (by decide)
    | _ => rfl

/-! ## What a command depends on -/

theorem sourceInBounds_congr {s u : State} (src : u.src = s.src) (len : u.len = s.len) (lim : u.lim = s.lim)
    (params : u.params = s.params) : u.SourceInBounds ↔ s.SourceInBounds := by
  rw [State.SourceInBounds, State.SourceInBounds, src, len, lim, params]

/-- A read of the source range depends on the bytes below LIM alone (R48). -/
theorem sourceBytes_congr {s u : State} (src : u.src = s.src) (len : u.len = s.len)
    (mem : ∀ a < s.lim.toNat, u.mem.read a = s.mem.read a) (inBounds : s.SourceInBounds) :
    u.sourceBytes = s.sourceBytes := by
  obtain ⟨-, belowLim⟩ := inBounds
  rw [State.sourceBytes, State.sourceBytes, src, len]
  exact Mem.readBytes_congr fun a _ below => mem a (by omega)

/-- The length field of a record depends on the bytes below LIM alone, if LIM leaves room for it (R100, step 2). -/
theorem wireLength_congr {s u : State} (src : u.src = s.src)
    (mem : ∀ a < s.lim.toNat, u.mem.read a = s.mem.read a) (room : 4 ≤ s.avail) : u.wireLength = s.wireLength := by
  rw [State.wireLength, State.wireLength, src]
  exact congrArg BitVec.toNat (Mem.readBe32_congr fun a _ below => mem a (by unfold State.avail at room; omega))

/-- Every field of a complete record depends on the bytes below LIM alone (R100). -/
theorem wireFields_congr {s u : State} (src : u.src = s.src)
    (mem : ∀ a < s.lim.toNat, u.mem.read a = s.mem.read a) (complete : encodedLength s.wireLength ≤ s.avail) :
    u.wireLength = s.wireLength ∧ u.wireType = s.wireType ∧ u.wireCrc = s.wireCrc ∧ u.recomputedCrc = s.recomputedCrc := by
  have recordEnd : s.src.toNat + s.wireLength + 12 ≤ s.lim.toNat := by
    unfold encodedLength State.avail at complete
    omega
  have length : u.wireLength = s.wireLength :=
    wireLength_congr src mem (le_trans (by unfold encodedLength; omega) complete)
  refine ⟨length, ?type, ?crc, ?recomputed⟩
  case type =>
    rw [State.wireType, State.wireType, src]
    exact Mem.readBe32_congr fun a _ below => mem a (by omega)
  case crc =>
    rw [State.wireCrc, State.wireCrc, src, length]
    exact Mem.readBe32_congr fun a _ below => mem a (by omega)
  case recomputed =>
    rw [State.recomputedCrc, State.recomputedCrc, src, length,
      Mem.readBytes_congr (a := s.src.toNat + 4) fun a _ below => mem a (by omega),
      Mem.readBytes_congr (a := s.src.toNat + 8) fun a _ below => mem a (by omega)]

/-- Two states that give command `i` the same inputs: the registers that R23 marks "r", the parameters, and BUF below LIM. -/
structure SameInputs (i : Instr) (s u : State) : Prop where
  regs : ∀ r ∈ readSet i, readReg r u = readReg r s
  params : u.params = s.params
  mem : ∀ a < s.lim.toNat, u.mem.read a = s.mem.read a

/-- DES on the same inputs passes in both states, or fails in both with the same error and context value. -/
theorem execDes_sameInputs {s u : State} (same : SameInputs .des s u) :
    (exec .des s = .next (desCommit s) ∧ exec .des u = .next (desCommit u)) ∨
    (∃ e info, exec .des s = .next (raise e info s) ∧ exec .des u = .next (raise e info u)) := by
  have src : u.src = s.src := same.regs .src (by decide)
  have lim : u.lim = s.lim := same.regs .lim (by decide)
  have avail : u.avail = s.avail := by rw [State.avail, State.avail, src, lim]
  have bounds : u.InputInBounds ↔ s.InputInBounds := by
    rw [State.InputInBounds, State.InputInBounds, src, lim, same.params]
  by_cases inBounds : s.InputInBounds
  · by_cases complete : encodedLength s.wireLength ≤ s.avail
    · obtain ⟨length, type, crc, recomputed⟩ := wireFields_congr src same.mem complete
      rw [exec_des_of_complete inBounds complete,
        exec_des_of_complete (bounds.mpr inBounds) (by rw [length, avail]; exact complete), type, crc, recomputed]
      split_ifs
      · exact .inr ⟨_, _, rfl, rfl⟩
      · exact .inl ⟨rfl, rfl⟩
      · exact .inr ⟨_, _, rfl, rfl⟩
    · refine .inr ⟨_, _, exec_des_of_truncated inBounds (.inr (not_le.mp complete)), ?_⟩
      rw [← avail]
      refine exec_des_of_truncated (bounds.mpr inBounds) ?_
      rw [avail]
      by_cases room : s.avail < 4
      · exact .inl room
      · rw [wireLength_congr src same.mem (not_lt.mp room)]
        exact .inr (not_le.mp complete)
  · exact .inr ⟨_, _, exec_des_of_not_inBounds inBounds, exec_des_of_not_inBounds (mt bounds.mp inBounds)⟩

/-- Every command on the same inputs passes in both states, or fails in both with the same error and context value. -/
theorem exec_sameInputs {i : Instr} {s u : State} (same : SameInputs i s u) :
    (exec i s = .next (commit i s) ∧ exec i u = .next (commit i u)) ∨
    (∃ e info, exec i s = .next (raise e info s) ∧ exec i u = .next (raise e info u)) := by
  cases i with
  | nop => exact .inl ⟨rfl, rfl⟩
  | tchk =>
    have type : u.type = s.type := same.regs .type (by decide)
    rw [exec, exec, execTchk, execTchk, type]
    split_ifs
    · exact .inl ⟨rfl, rfl⟩
    · exact .inr ⟨_, _, rfl, rfl⟩
  | crcinit => exact .inl ⟨rfl, rfl⟩
  | crcb b => exact .inl ⟨rfl, rfl⟩
  | crcupd =>
    have bounds := sourceInBounds_congr (same.regs .src (by decide)) (same.regs .len (by decide))
      (same.regs .lim (by decide)) same.params
    by_cases inBounds : s.SourceInBounds
    · exact .inl ⟨exec_crcupd_of_inBounds inBounds, exec_crcupd_of_inBounds (bounds.mpr inBounds)⟩
    · exact .inr ⟨_, _, exec_crcupd_of_not_inBounds inBounds, exec_crcupd_of_not_inBounds (mt bounds.mp inBounds)⟩
  | crcfin => exact .inl ⟨rfl, rfl⟩
  | crc32 =>
    have bounds := sourceInBounds_congr (same.regs .src (by decide)) (same.regs .len (by decide))
      (same.regs .lim (by decide)) same.params
    by_cases inBounds : s.SourceInBounds
    · exact .inl ⟨exec_crc32_of_inBounds inBounds, exec_crc32_of_inBounds (bounds.mpr inBounds)⟩
    · exact .inr ⟨_, _, exec_crc32_of_not_inBounds inBounds, exec_crc32_of_not_inBounds (mt bounds.mp inBounds)⟩
  | ser =>
    exact execSer_congr (same.regs .type (by decide)) (same.regs .len (by decide)) (same.regs .src (by decide))
      (same.regs .lim (by decide)) (same.regs .dst (by decide)) same.params
  | des => exact execDes_sameInputs same

/-! ## Another value in a register -/

@[simp] theorem poke_mem (r : Reg) (v : Word) (s : State) : (State.poke r v s).mem = s.mem := by cases r <;> rfl
@[simp] theorem poke_params (r : Reg) (v : Word) (s : State) : (State.poke r v s).params = s.params := by cases r <;> rfl

theorem raise_poke (e : Err) (info : Word) (r : Reg) (v : Word) (s : State) :
    raise e info (State.poke r v s) = State.poke r v (raise e info s) := by
  cases r <;> rfl

/-- FLAGS follows TYPE; every other register keeps its value when another one gets a new value. -/
theorem readReg_poke_other {q r : Reg} (other : q ≠ r) (notFlags : q ≠ .flags) (v : Word) (s : State) :
    readReg q (State.poke r v s) = readReg q s := by
  cases r <;> cases q <;> simp_all [readReg, State.poke]

/-- No command reads FLAGS, so a register that a command does not read is no input of it. -/
theorem sameInputs_poke {i : Instr} {r : Reg} (unread : r ∉ readSet i) (v : Word) (s : State) :
    SameInputs i s (State.poke r v s) where
  regs q read := by
    have other : q ≠ r := fun same => unread (same ▸ read)
    have notFlags : q ≠ .flags := fun flags => by cases i <;> simp [readSet, flags] at read
    exact readReg_poke_other other notFlags v s
  params := poke_params r v s
  mem a _ := by rw [poke_mem]

/-- With another value in a register that it does not read, a command leaves the same state if it writes the register, and else
the same state with that value. -/
theorem commit_poke {i : Instr} {r : Reg} (unread : r ∉ readSet i) (v : Word) (s : State) :
    commit i (State.poke r v s) = if r ∈ writeSet i then commit i s else State.poke r v (commit i s) := by
  cases i with
  | nop => cases r <;> rfl
  | tchk =>
    cases r with
    | type => exact absurd (by decide) unread
    | _ => rfl
  | crcinit => cases r <;> rfl
  | crcb b =>
    cases r with
    | acc => exact absurd List.mem_cons_self unread
    | _ => rfl
  | crcupd =>
    cases r with
    | len | src | lim | acc => exact absurd (by decide) unread
    | _ => rfl
  | crcfin =>
    cases r with
    | acc => exact absurd (by decide) unread
    | _ => rfl
  | crc32 =>
    cases r with
    | len | src | lim => exact absurd (by decide) unread
    | _ => rfl
  | ser =>
    cases r with
    | type | len | src | lim | dst => exact absurd (by decide) unread
    | _ => rfl
  | des =>
    cases r with
    | src | lim => exact absurd (by decide) unread
    | _ => rfl

/-! ## Other bytes of BUF at or above LIM -/

/-- A command that passes leaves the same registers whatever stands in BUF at or above LIM. -/
theorem commit_withMem {i : Instr} {s : State} {m : Mem} (below : ∀ a < s.lim.toNat, m.read a = s.mem.read a)
    (passes : s.Passes i) : { commit i { s with mem := m } with mem := (commit i s).mem } = commit i s := by
  have source (inBounds : s.SourceInBounds) : State.sourceBytes { s with mem := m } = s.sourceBytes :=
    sourceBytes_congr rfl rfl below inBounds
  cases i with
  | crcupd =>
    simp only [commit, source passes]
    rfl
  | crc32 =>
    simp only [commit, source passes]
    rfl
  | ser =>
    obtain ⟨⟨inBounds, -⟩, -⟩ := passes
    simp only [commit, serCommit, source inBounds]
    rfl
  | des =>
    obtain ⟨length, type, -, recomputed⟩ := wireFields_congr (s := s) (u := { s with mem := m }) rfl below passes.complete
    simp only [commit, desCommit, length, type, recomputed]
    rfl
  | _ => rfl

/-- SER writes the same record whatever stands in BUF at or above LIM. -/
theorem readBytes_serCommit_withMem {s : State} {m : Mem} (below : ∀ a < s.lim.toNat, m.read a = s.mem.read a)
    (inBounds : s.SourceInBounds) :
    (serCommit { s with mem := m }).mem.readBytes s.dst.toNat (encodedLength s.len.toNat) =
      (serCommit s).mem.readBytes s.dst.toNat (encodedLength s.len.toNat) := by
  have source : State.sourceBytes { s with mem := m } = s.sourceBytes := sourceBytes_congr rfl rfl below inBounds
  rw [readBytes_serCommit s, readBytes_serCommit { s with mem := m }, serCommit_crc, serCommit_crc, source]

end Sys2Proof.Machine
end

section
/-! PROOFS. The obligations about what each command reads and writes (10_state.md section 2, 20_memory.md). -/

namespace Sys2Proof.Machine

/-- Settles O34: an error writes no register of the table, and the success state writes those of the command's row. -/
theorem commandWriteSets : Obligations.CommandWriteSets := by
  intro i s t run
  obtain ⟨-, rfl⟩ | ⟨e, -, rfl⟩ := eq_commit_or_raise_of_exec run
  · obtain ⟨lim, params, actions, reply⟩ := commit_frame i s
    exact ⟨fun r operand unwritten => readReg_commit_unwritten operand unwritten s, lim, params, actions, reply,
      fun notSer => commit_mem notSer s⟩
  · exact ⟨fun r operand _ => readReg_raise operand e _ s, rfl, rfl, rfl, rfl, fun _ => rfl⟩

/-- Settles O35: another value in an unread register leaves the inputs the same (`sameInputs_poke`), so the command passes or
fails alike; an error keeps the value, and success keeps it unless it writes the register. -/
theorem commandReadSets : Obligations.CommandReadSets := by
  intro i s t r v run operand unread
  obtain ⟨done, pokedDone⟩ | ⟨e, info, raised, pokedRaised⟩ := exec_sameInputs (sameInputs_poke unread v s)
  · cases done.symm.trans run
    rw [pokedDone, commit_poke unread, commit_status]
    simp
  · cases raised.symm.trans run
    rw [pokedRaised, raise_poke, if_neg fun success => e.code_ne_zero success.left]

/-- Settles O36: the bytes at or above LIM are no input of a command, so it passes or fails alike; what it then leaves is
computed from bytes below LIM. -/
theorem commandsReadOnlyBelowLim : Obligations.CommandsReadOnlyBelowLim := by
  intro i s t m below run
  have same : SameInputs i s { s with mem := m } := ⟨fun r _ => by cases r <;> rfl, rfl, below⟩
  obtain ⟨done, done'⟩ | ⟨e, info, raised, raised'⟩ := exec_sameInputs same
  · cases done.symm.trans run
    obtain ⟨passes, -⟩ := eq_commit_of_success run (commit_status i s)
    refine ⟨_, done', commit_withMem below passes, fun notSer => ?kept, ?record⟩
    case kept => exact commit_mem (notSer.resolve_right fun failed => failed (commit_status i s)) _
    case record =>
      rintro rfl -
      exact readBytes_serCommit_withMem below passes.left.left
  · cases raised.symm.trans run
    exact ⟨_, raised', rfl, fun _ => rfl, fun _ success => absurd success e.code_ne_zero⟩

/-- Settles O37: none of the five changes what its checks and its result are computed from. -/
theorem fiveCommandsAreIdempotent : Obligations.FiveCommandsAreIdempotent := by
  intro i s t five run
  obtain rfl | rfl | rfl | rfl | rfl := five
  · cases run; rfl
  · by_cases letters : FourLetters s.type
    · cases (exec_tchk_of_fourLetters letters).symm.trans run
      exact exec_tchk_of_fourLetters letters
    · cases (exec_tchk_of_not_fourLetters letters).symm.trans run
      exact exec_tchk_of_not_fourLetters letters
  · cases run; rfl
  · cases run; rfl
  · by_cases inBounds : s.SourceInBounds
    · cases (exec_crc32_of_inBounds inBounds).symm.trans run
      exact exec_crc32_of_inBounds inBounds
    · cases (exec_crc32_of_not_inBounds inBounds).symm.trans run
      exact exec_crc32_of_not_inBounds inBounds

end Sys2Proof.Machine
end

section
/-! SUPPORT. The invariant of the engine: what keeps a legal result, and that every command and every host action keeps the
whole of it (R5, R27, R31, R47, R136). -/

namespace Sys2Proof.Machine

/-! ## Legal results -/

theorem State.resultWf_iff (s : State) :
    s.resultWf = true ↔ s.status ∈ legalStatus ∧ (s.status = 0 ∨ s.status = 8 ∨ s.status = 9 → s.einfo = 0) ∧
      (s.status = 1 → ¬ FourLetters s.einfo) ∧ (s.status = 2 → s.einfo.toNat ≤ s.params.bufSize) ∧
      (s.status = 10 → ¬ wordLegal s.einfo = true) := by
  simp only [State.resultWf, Bool.and_eq_true, Bool.or_eq_true, Bool.not_eq_true', Bool.or_eq_false_iff, beq_eq_false_iff_ne,
    beq_iff_eq, List.contains_iff_mem, allLetters_eq_false_iff, decide_eq_true_eq]
  grind

theorem resultWf_raise {e : Err} {info : Word} {s : State} (fits : e.Fits s.params info) :
    (raise e info s).resultWf = true := by
  rw [State.resultWf_iff, raise_status, raise_einfo, raise_params]
  cases e with
  | type =>
    exact ⟨by decide, fun h => absurd h (by decide), fun _ => fits, fun h => absurd h (by decide),
      fun h => absurd h (by decide)⟩
  | trunc =>
    exact ⟨by decide, fun h => absurd h (by decide), fun h => absurd h (by decide), fun _ => fits,
      fun h => absurd h (by decide)⟩
  | crc =>
    exact ⟨by decide, fun h => absurd h (by decide), fun h => absurd h (by decide), fun h => absurd h (by decide),
      fun h => absurd h (by decide)⟩
  | bounds | overlap =>
    exact ⟨by decide, fun _ => fits, fun h => absurd h (by decide), fun h => absurd h (by decide),
      fun h => absurd h (by decide)⟩
  | illegal =>
    exact ⟨by decide, fun h => absurd h (by decide), fun h => absurd h (by decide), fun h => absurd h (by decide),
      fun _ => fits⟩

theorem resultWf_of_success {s : State} (status : s.status = 0) (einfo : s.einfo = 0) : s.resultWf = true := by
  rw [State.resultWf_iff, status, einfo]
  simp [legalStatus]

/-! ## Keeping the invariant -/

/-- The invariant speaks of six fields alone. -/
theorem State.Inv.of_sameFields {s t : State} (inv : s.Inv) (params : t.params = s.params) (mem : t.mem = s.mem)
    (status : t.status = s.status) (einfo : t.einfo = s.einfo) (elen : t.elen = s.elen) (pay : t.pay = s.pay) : t.Inv where
  paramsWf := params ▸ inv.paramsWf
  memWf := mem ▸ inv.memWf
  memWithin := by rw [mem, params]; exact inv.memWithin
  resultWf := by rw [State.resultWf, status, einfo, params]; exact inv.resultWf
  elenBound := by rw [elen, params]; exact inv.elenBound
  payBound := by rw [pay, params]; exact inv.payBound

theorem inv_raise {s : State} (inv : s.Inv) {e : Err} {info : Word} (fits : e.Fits s.params info) :
    (raise e info s).Inv :=
  { inv with resultWf := resultWf_raise fits }

theorem inv_succeed {s : State} (inv : s.Inv) : (succeed s).Inv :=
  { inv with resultWf := resultWf_of_success rfl rfl }

/-- The record of a successful SER lies inside BUF, so its bytes and its length do. -/
theorem inv_serCommit {s : State} (inv : s.Inv) (inBounds : s.SerInBounds) : (serCommit s).Inv where
  paramsWf := inv.paramsWf
  memWf := Mem.wf_writeRecord inv.memWf _ _ _ _ _
  memWithin := Mem.within_writeRecord inv.memWithin _ _ s.length_sourceBytes inBounds.right
  resultWf := resultWf_of_success rfl rfl
  elenBound := by
    rw [toNat_serCommit_elen inv.paramsWf inBounds]
    exact .inr ⟨Nat.le_add_left _ _, (Nat.le_add_left _ _).trans inBounds.right⟩
  payBound := inv.payBound

/-- The record of a successful DES lies below LIM, so its length and its payload lie inside BUF. -/
theorem inv_desCommit {s : State} (inv : s.Inv) (passes : s.DesPasses) : (desCommit s).Inv := by
  obtain ⟨pay, elen, -⟩ := toNat_desCommit_sums inv.paramsWf passes.inBounds passes.complete
  obtain ⟨limInBuf, srcBelowLim⟩ := passes.inBounds
  have recordInBuf : s.src.toNat + s.wireLength + 12 ≤ s.params.bufSize := by
    have complete := passes.complete
    unfold encodedLength State.avail at complete
    omega
  refine { inv with resultWf := resultWf_of_success rfl rfl, elenBound := .inr ?_, payBound := .inr ?_ }
  · rw [elen, encodedLength]
    exact ⟨by omega, by change _ ≤ s.params.bufSize; omega⟩
  · rw [pay]
    exact ⟨by omega, by change _ ≤ s.params.bufSize; omega⟩

theorem inv_commit {i : Instr} {s : State} (inv : s.Inv) (passes : s.Passes i) : (commit i s).Inv := by
  cases i with
  | ser => exact inv_serCommit inv passes.left
  | des => exact inv_desCommit inv passes
  | _ => exact inv_succeed (inv.of_sameFields rfl rfl rfl rfl rfl rfl)

/-- A command keeps the invariant, whether it passes its checks or raises an error. -/
theorem inv_exec {i : Instr} {s t : State} (inv : s.Inv) (run : exec i s = .next t) : t.Inv := by
  obtain ⟨passes, rfl⟩ | ⟨e, fits, rfl⟩ := eq_commit_or_raise_of_exec run
  · exact inv_commit inv passes
  · exact inv_raise inv fits

/-- A command word keeps the invariant; an illegal one leaves itself in EINFO. -/
theorem inv_runCommand {w : Word} {s t : State} (inv : s.Inv) (run : runCommand w s = .next t) : t.Inv := by
  cases decoded : decode w with
  | ok i => exact inv_exec inv ((runCommand_of_ok decoded s).symm.trans run)
  | error r =>
    cases (runCommand_of_error decoded s).symm.trans run
    exact inv_raise inv (e := .illegal) ((exists_decode_eq_error_iff w).mp ⟨r, decoded⟩)

theorem inv_writeReg {s : State} (inv : s.Inv) (r : Reg) (v : Word) : (writeReg r v s).Inv :=
  inv.of_sameFields (writeReg_params r v s) (writeReg_mem r v s) (writeReg_status r v s) (writeReg_einfo r v s)
    (writeReg_elen r v s) (writeReg_pay r v s)

theorem inv_bufWrite {s : State} (inv : s.Inv) {i : Nat} (below : i < s.params.bufSize) (v : Byte) :
    State.Inv { s with mem := s.mem.write i v } :=
  { inv with memWf := Mem.wf_write inv.memWf i v, memWithin := Mem.within_write inv.memWithin below v }

/-- The reset values have the invariant with any legal parameters and any BUF that fits them. -/
theorem inv_resetRegisters {s : State} (params : s.params.wf = true) (mem : s.mem.wf = true)
    (within : s.mem.within s.params.bufSize = true) : (resetRegisters s).Inv :=
  ⟨params, mem, within, resultWf_of_success rfl rfl, .inl rfl, .inl rfl⟩

/-- A host action that starts no command keeps the invariant. -/
theorem inv_perform {a : HostAction} {s t : State} (inv : s.Inv) (run : perform a s = .done t) : t.Inv := by
  obtain ⟨w, h⟩ | ⟨r, v, -, h⟩ | ⟨i, v, below, h⟩ | ⟨p, h⟩ | h | ⟨q, h⟩ := perform_cases a s <;> cases h.symm.trans run
  · exact inv_writeReg inv r v
  · exact inv_bufWrite inv below v
  · exact inv.of_sameFields rfl rfl rfl rfl rfl rfl
  · exact inv_resetRegisters inv.paramsWf inv.memWf inv.memWithin

/-- A command word reaches the engine in the very state in which the action is performed. -/
theorem eq_of_perform_eq_command {a : HostAction} {s t : State} {w : Word} (run : perform a s = .command w t) : t = s := by
  obtain ⟨w, h⟩ | ⟨r, v, -, h⟩ | ⟨i, v, -, h⟩ | ⟨p, h⟩ | h | ⟨q, h⟩ := perform_cases a s <;> cases h.symm.trans run
  rfl

/-! ## Legal parameters after reset -/

/-- The constants of `Config` give legal parameters, whatever their values are (R5, R47). -/
theorem wf_configParams : Config.params.wf = true := by
  have size : Config.bufSize ≤ 2 ^ 32 - 1 := Nat.succ_le_of_lt Config.bufSizePred.isLt
  cases first : Config.bufWindowFirst <;> simp [Params.wf, Config.params, Config.bufSize, first] at size ⊢

end Sys2Proof.Machine
end

section
/-! PROOFS. The obligations about the invariant of the engine (10_state.md, 20_memory.md, 60_exceptions.md). -/

namespace Sys2Proof.Machine

/-- Settles O38: a step is idle, performs an action that starts no command, or runs a command word; taking the action off the
list touches no field that the invariant speaks of, and each of the three keeps it. -/
theorem everyStepKeepsTheInvariant : Obligations.EveryStepKeepsTheInvariant := by
  intro s t inv stepped
  have taken (rest : List HostAction) : State.Inv { s with actions := rest, reply := .nothing } :=
    inv.of_sameFields rfl rfl rfl rfl rfl rfl
  obtain ⟨-, rfl⟩ | ⟨a, rest, -, done⟩ | ⟨a, rest, w, u, -, issued, run⟩ := step_cases stepped
  · exact inv
  · exact inv_perform (taken rest) done
  · cases eq_of_perform_eq_command issued
    exact inv_runCommand (taken rest) run

/-- Settles O39: after power-up BUF holds no written byte, the registers hold their reset values, and the parameters are
legal. -/
theorem resetHasTheInvariant : Obligations.ResetHasTheInvariant :=
  inv_resetRegisters (s := State.reset) wf_configParams rfl rfl

end Sys2Proof.Machine
end

section
/-! SUPPORT. Which host actions have a meaning (R30, R45, R47, R48), and that each of those completes. -/

namespace Sys2Proof.Machine

/-! ## The two windows (R47) -/

/-- With legal parameters no bus address lies in both windows. -/
theorem not_inBufWindow_of_inRegWindow {p : Params} (legal : p.wf = true) {addr : Nat} (inReg : InRegWindow p addr) :
    ¬ InBufWindow p addr := by
  simp only [Params.wf, Bool.and_eq_true, Bool.or_eq_true, decide_eq_true_eq] at legal
  omega

theorem perform_busWrite_of_inRegWindow {s : State} {addr : Nat} (inReg : InRegWindow s.params addr) (width : Width)
    (v : Word) : perform (.busWrite width addr v) s = perform (.regWrite width (addr - s.params.regBase) v) s :=
  if_pos inReg

theorem perform_busRead_of_inRegWindow {s : State} {addr : Nat} (inReg : InRegWindow s.params addr) (width : Width) :
    perform (.busRead width addr) s = perform (.regRead width (addr - s.params.regBase)) s :=
  if_pos inReg

theorem perform_busWrite_of_inBufWindow {s : State} (legal : s.params.wf = true) {addr : Nat}
    (inBuf : InBufWindow s.params addr) (v : Word) :
    perform (.busWrite .byte addr v) s = perform (.bufWrite (addr - s.params.bufBase) (v.extractLsb' 0 8)) s :=
  (if_neg fun inReg => not_inBufWindow_of_inRegWindow legal inReg inBuf).trans ((if_pos inBuf).trans (if_pos rfl))

theorem perform_busRead_of_inBufWindow {s : State} (legal : s.params.wf = true) {addr : Nat}
    (inBuf : InBufWindow s.params addr) :
    perform (.busRead .byte addr) s = perform (.bufRead (addr - s.params.bufBase)) s :=
  (if_neg fun inReg => not_inBufWindow_of_inRegWindow legal inReg inBuf).trans ((if_pos inBuf).trans (if_pos rfl))

theorem perform_bus_of_unmapped {s : State} {addr : Nat} (notReg : ¬ InRegWindow s.params addr)
    (notBuf : ¬ InBufWindow s.params addr) (width : Width) (v : Word) :
    perform (.busWrite width addr v) s = .refuse .unmappedBusAddress ∧
      perform (.busRead width addr) s = .refuse .unmappedBusAddress :=
  ⟨(if_neg notReg).trans (if_neg notBuf), (if_neg notReg).trans (if_neg notBuf)⟩

/-- A BUF access on the bus that is wider than a byte is refused (R45). -/
theorem perform_bus_of_wide {s : State} {addr : Nat} (notReg : ¬ InRegWindow s.params addr)
    (inBuf : InBufWindow s.params addr) {width : Width} (wide : width ≠ .byte) (v : Word) :
    perform (.busWrite width addr v) s = .refuse .wideBufAccess ∧
      perform (.busRead width addr) s = .refuse .wideBufAccess :=
  ⟨(if_neg notReg).trans ((if_pos inBuf).trans (if_neg wide)), (if_neg notReg).trans ((if_pos inBuf).trans (if_neg wide))⟩

/-! ## Accesses with a meaning -/

/-- The register accesses that R30 gives a meaning are those that name a register. -/
theorem admittedRegAccess_iff (width : Width) (o : Nat) :
    (width == .word && (allRegs.map Reg.offset).contains o) = true ↔ ∃ r, accessedReg width o = .ok r := by
  rw [Bool.and_eq_true, beq_iff_eq, List.contains_iff_mem]
  constructor
  · rintro ⟨rfl, listed⟩
    obtain ⟨r, -, rfl⟩ := List.mem_map.mp listed
    exact ⟨r, accessedReg_offset r⟩
  · rintro ⟨r, named⟩
    obtain ⟨word, rfl⟩ := accessedReg_ok named
    exact ⟨word, List.mem_map_of_mem (by cases r <;> decide)⟩

/-- The register window holds every listed offset, so a bus address names a register exactly when it lies in the window at that
register's offset (R47). -/
theorem admittedBusAccess_iff (p : Params) (width : Width) (addr : Nat) :
    ((width == .word && (allRegs.map fun r => p.regBase + r.offset).contains addr) ||
      (width == .byte && decide (p.bufBase ≤ addr) && decide (addr < p.bufBase + p.bufSize))) = true ↔
    (InRegWindow p addr ∧ (width == .word && (allRegs.map Reg.offset).contains (addr - p.regBase)) = true) ∨
      (width = .byte ∧ InBufWindow p addr) := by
  have inWindow (r : Reg) : r.offset < Params.regWindow := by cases r <;> decide
  simp only [Bool.or_eq_true, Bool.and_eq_true, beq_iff_eq, List.contains_iff_mem, List.mem_map, decide_eq_true_eq, and_assoc]
  refine or_congr_left ⟨?_, ?_⟩
  · rintro ⟨word, r, listed, rfl⟩
    exact ⟨Nat.le_add_right _ _, Nat.add_lt_add_left (inWindow r) _, word, r, listed, (Nat.add_sub_cancel_left _ _).symm⟩
  · rintro ⟨above, -, word, r, listed, offset⟩
    exact ⟨word, r, listed, by omega⟩

theorem performRegWrite_refuses_iff (width : Width) (o : Nat) (v : Word) (s : State) :
    (∃ q, perform (.regWrite width o v) s = .refuse q) ↔
      ¬ (width == .word && (allRegs.map Reg.offset).contains o) = true := by
  rw [admittedRegAccess_iff, perform, performRegWrite]
  cases named : accessedReg width o with
  | error q => simp
  | ok r => by_cases cmd : r = .cmd <;> simp [cmd]

theorem performRegRead_refuses_iff (width : Width) (o : Nat) (s : State) :
    (∃ q, perform (.regRead width o) s = .refuse q) ↔
      ¬ (width == .word && (allRegs.map Reg.offset).contains o) = true := by
  rw [admittedRegAccess_iff, perform, performRegRead]
  cases named : accessedReg width o <;> simp

theorem performBufWrite_refuses_iff (i : Nat) (v : Byte) (s : State) :
    (∃ q, perform (.bufWrite i v) s = .refuse q) ↔ ¬ i < s.params.bufSize := by
  rw [perform, performBufWrite]
  split_ifs with below <;> simp [below]

theorem performBufRead_refuses_iff (i : Nat) (s : State) :
    (∃ q, perform (.bufRead i) s = .refuse q) ↔ ¬ i < s.params.bufSize := by
  rw [perform, performBufRead]
  split_ifs with below <;> simp [below]

/-- A bus access is refused where it is neither a register access with a meaning nor a byte access in the BUF window. -/
theorem performBus_refuses_iff {s : State} (legal : s.params.wf = true) (width : Width) (addr : Nat) (v : Word) :
    ((∃ q, perform (.busWrite width addr v) s = .refuse q) ↔
      ¬ (HostAction.busWrite width addr v).admitted s.params = true) ∧
    ((∃ q, perform (.busRead width addr) s = .refuse q) ↔
      ¬ (HostAction.busRead width addr).admitted s.params = true) := by
  rw [HostAction.admitted, HostAction.admitted, admittedBusAccess_iff]
  by_cases inReg : InRegWindow s.params addr
  · have notBuf := not_inBufWindow_of_inRegWindow legal inReg
    rw [perform_busWrite_of_inRegWindow inReg, performRegWrite_refuses_iff, perform_busRead_of_inRegWindow inReg,
      performRegRead_refuses_iff, and_iff_right inReg, or_iff_left fun inBuf => notBuf inBuf.right]
    exact ⟨Iff.rfl, Iff.rfl⟩
  rw [or_iff_right fun named => inReg named.left]
  by_cases inBuf : InBufWindow s.params addr
  · by_cases byte : width = .byte
    · subst byte
      have below : addr - s.params.bufBase < s.params.bufSize := Nat.sub_lt_left_of_lt_add inBuf.left inBuf.right
      rw [perform_busWrite_of_inBufWindow legal inBuf, performBufWrite_refuses_iff,
        perform_busRead_of_inBufWindow legal inBuf, performBufRead_refuses_iff]
      exact ⟨iff_of_false (not_not.mpr below) (not_not.mpr ⟨rfl, inBuf⟩),
        iff_of_false (not_not.mpr below) (not_not.mpr ⟨rfl, inBuf⟩)⟩
    · obtain ⟨write, read⟩ := perform_bus_of_wide inReg inBuf byte v
      exact ⟨iff_of_true ⟨_, write⟩ fun meant => byte meant.left, iff_of_true ⟨_, read⟩ fun meant => byte meant.left⟩
  · obtain ⟨write, read⟩ := perform_bus_of_unmapped inReg inBuf width v
    exact ⟨iff_of_true ⟨_, write⟩ fun meant => inBuf meant.right, iff_of_true ⟨_, read⟩ fun meant => inBuf meant.right⟩

/-- With legal parameters exactly the actions to which the spec gives no meaning are refused (U1 to U3, R45, R47). -/
theorem perform_refuses_iff {s : State} (legal : s.params.wf = true) (a : HostAction) :
    (∃ q, perform a s = .refuse q) ↔ ¬ a.admitted s.params = true := by
  cases a with
  | regWrite width o v => exact performRegWrite_refuses_iff width o v s
  | regRead width o => exact performRegRead_refuses_iff width o s
  | bufWrite i v => rw [performBufWrite_refuses_iff, HostAction.admitted, decide_eq_true_eq]
  | bufRead i => rw [performBufRead_refuses_iff, HostAction.admitted, decide_eq_true_eq]
  | busWrite width addr v => exact (performBus_refuses_iff legal width addr v).left
  | busRead width addr => exact (performBus_refuses_iff legal width addr 0).right
  | reset => exact iff_of_false nofun (not_not.mpr rfl)

/-! ## Completion -/

/-- A command word runs to its end, whatever the state, and the list of actions stays as it is (R138). -/
theorem runCommand_completes (w : Word) (s : State) : ∃ t, runCommand w s = .next t ∧ t.actions = s.actions := by
  cases decoded : decode w with
  | ok i =>
    rw [runCommand_of_ok decoded]
    obtain ⟨-, done⟩ | ⟨e, -, -, raised⟩ := exec_passes_or_raises i s
    · obtain ⟨-, -, actions, -⟩ := commit_frame i s
      exact ⟨_, done, actions⟩
    · exact ⟨_, raised, rfl⟩
  | error r => exact ⟨_, runCommand_of_error decoded s, rfl⟩

/-- An action that is not refused completes, with the command it starts. -/
theorem perform_refuses_or_completes (a : HostAction) (s : State) :
    (∃ q, perform a s = .refuse q) ∨ (∃ t, conclude (perform a s) = .next t ∧ t.actions = s.actions) := by
  obtain ⟨w, h⟩ | ⟨r, v, -, h⟩ | ⟨i, v, -, h⟩ | ⟨p, h⟩ | h | h := perform_cases a s
  · rw [h]
    exact .inr (runCommand_completes w s)
  · rw [h]
    exact .inr ⟨_, rfl, writeReg_actions r v s⟩
  · rw [h]
    exact .inr ⟨_, rfl, rfl⟩
  · rw [h]
    exact .inr ⟨_, rfl, rfl⟩
  · rw [h]
    exact .inr ⟨_, rfl, rfl⟩
  · exact .inl h

end Sys2Proof.Machine
end

section
/-! PROOFS. The obligations about the bus and about which host actions complete (20_memory.md, 93_implementation_defined.md). -/

namespace Sys2Proof.Machine

/-- Settles O46: an address in one window is the access at its distance from the window's base, since legal windows do not
meet. -/
theorem busReachesTheTwoWindows : Obligations.BusReachesTheTwoWindows := by
  intro s width v x legal
  refine ⟨fun below => ?reg, fun below => ?buf, fun notReg notBuf => ?neither⟩
  case reg =>
    have inReg : InRegWindow s.params (s.params.regBase + x) := ⟨Nat.le_add_right _ _, Nat.add_lt_add_left below _⟩
    rw [perform_busWrite_of_inRegWindow inReg, perform_busRead_of_inRegWindow inReg, Nat.add_sub_cancel_left]
    exact ⟨rfl, rfl⟩
  case buf =>
    have inBuf : InBufWindow s.params (s.params.bufBase + x) := ⟨Nat.le_add_right _ _, Nat.add_lt_add_left below _⟩
    rw [perform_busWrite_of_inBufWindow legal inBuf, perform_busRead_of_inBufWindow legal inBuf, Nat.add_sub_cancel_left]
    exact ⟨rfl, rfl⟩
  case neither =>
    refine perform_bus_of_unmapped ?_ ?_ width v
    · rintro ⟨above, below⟩
      exact notReg.elim above.not_gt below.not_ge
    · rintro ⟨above, below⟩
      exact notBuf.elim above.not_gt below.not_ge

/-- Settles O47: the actions that are refused are exactly those without a meaning, and what is not refused completes. -/
theorem admittedActionsComplete : Obligations.AdmittedActionsComplete := by
  intro s a rest legal next
  rw [step_cons next]
  have refuses := perform_refuses_iff (s := { s with actions := rest, reply := .nothing }) legal a
  refine ⟨fun admitted => ?_, fun notAdmitted => ?_⟩
  · exact (perform_refuses_or_completes a _).resolve_left fun refused => refuses.mp refused admitted
  · obtain ⟨q, refused⟩ := refuses.mpr (by simp [notAdmitted])
    exact ⟨q, by rw [refused]; rfl⟩

end Sys2Proof.Machine
end

section
/-! SUPPORT. The outcome of a command that finds STATUS and EINFO at the values it writes. -/

namespace Sys2Proof.Machine

/-- Success changes nothing where no error stands. -/
theorem succeed_eq_self {s : State} (status : s.status = 0) (einfo : s.einfo = 0) : succeed s = s := by
  calc succeed s = report s.status s.einfo s := by rw [status, einfo, succeed]
    _ = s := rfl

/-- An error whose context value stands in EINFO already writes STATUS alone. -/
theorem raise_eq_of_einfo {info : Word} {s : State} (einfo : s.einfo = info) (e : Err) :
    raise e info s = { s with status := e.code } := by
  rw [raise, report, ← einfo]

end Sys2Proof.Machine
end

section
/-! PROOFS. The obligation about the first command after reset (70_reset_and_hazards.md section 1). -/

namespace Sys2Proof.Machine

/-- Settles O42: the reset values decide each check (no letters, an empty range at 0, no byte from SRC to LIM, a record of 12
bytes at 0), and the values that a passing command writes are there already, but for ACC after CRCB. -/
theorem firstCommandsAfterReset : Obligations.FirstCommandsAfterReset := by
  intro s legal reset
  have type : s.type = 0 := congrArg State.type reset
  have len : s.len = 0 := congrArg State.len reset
  have src : s.src = 0 := congrArg State.src reset
  have lim : s.lim = 0 := congrArg State.lim reset
  have dst : s.dst = 0 := congrArg State.dst reset
  have crc : s.crc = 0 := congrArg State.crc reset
  have acc : s.acc = crcOnes := congrArg State.acc reset
  have status : s.status = 0 := congrArg State.status reset
  have einfo : s.einfo = 0 := congrArg State.einfo reset
  have unchanged : succeed s = s := succeed_eq_self status einfo
  have notLetters : ¬ FourLetters s.type := by rw [type]; decide
  have inBounds : s.SourceInBounds := by
    rw [State.SourceInBounds, src, len, lim]
    exact ⟨Nat.zero_le _, le_rfl⟩
  have noBytes : s.sourceBytes = [] := by
    rw [State.sourceBytes, len]
    rfl
  have recordEnd : s.dst.toNat + encodedLength s.len.toNat = 12 := by
    rw [dst, len]
    rfl
  have crcb (b : Byte) : exec (.crcb b) s = .next { s with acc := crcStep s.acc b } :=
    congrArg Host.Outcome.next (succeed_eq_self status einfo)
  refine ⟨?nop, ?tchk, ?crcinit, crcb, ?crcbValue, ?crcupd, ?crcfin, ?crc32, fun small => ?serBounds,
    fun large => ?serType, ?des⟩
  case nop => rw [exec_nop, unchanged]
  case tchk => rw [exec_tchk_of_not_fourLetters notLetters, raise_eq_of_einfo (einfo.trans type.symm), Err.code]
  case crcinit => rw [exec_crcinit, ← acc, unchanged]
  case crcbValue =>
    have value : crcStep crcOnes 0x61 = 0x174841BC := by decide +kernel
    rw [crcb, acc, value]
  case crcupd => rw [exec_crcupd_of_inBounds inBounds, noBytes, crcFold, unchanged]
  case crcfin =>
    have complement : s.acc ^^^ crcOnes = s.crc := by rw [acc, crc]; decide
    rw [exec_crcfin, complement, unchanged]
  case crc32 =>
    have checksum : Machine.crc32 [] = s.crc := by rw [crc]; decide
    rw [exec_crc32_of_inBounds inBounds, noBytes, checksum, unchanged]
  case serBounds =>
    have outOfBounds : ¬ s.SerInBounds := fun ⟨_, room⟩ => (recordEnd ▸ room).not_gt small
    rw [exec_ser_of_not_inBounds outOfBounds, raise_eq_of_einfo einfo, Err.code]
  case serType =>
    rw [exec_ser_of_inBounds ⟨inBounds, recordEnd.trans_le large⟩, if_pos notLetters,
      raise_eq_of_einfo (einfo.trans type.symm), Err.code]
  case des =>
    have noInput : s.avail = 0 := by
      rw [State.avail, lim, src]
      rfl
    have inputInBounds : s.InputInBounds := by
      rw [State.InputInBounds, src, lim]
      exact ⟨Nat.zero_le _, le_rfl⟩
    rw [exec_des_of_truncated inputInBounds (.inl (by rw [noInput]; decide)), noInput,
      raise_eq_of_einfo (info := BitVec.ofNat 32 0) einfo, Err.code]

end Sys2Proof.Machine
end

section
/-! SUPPORT. The algebra of the CRC (R80 to R83): the step is linear over exclusive-or, it shifts out zero bits unchanged, and
it takes no value but 0 to 0. -/

namespace Sys2Proof.Machine

/-! ## The inner step -/

/-- What an inner step adds to the shifted value: the polynomial of R80 if a one was shifted out. -/
def crcFeedback (out : Bool) : Word := if out then 0xEDB88320 else 0

theorem crcBit_eq (a : Word) : crcBit a = (a >>> 1) ^^^ crcFeedback (a.getLsbD 0) := by
  rw [crcBit, crcFeedback]
  split_ifs
  · rfl
  · exact BitVec.xor_zero.symm

theorem crcFeedback_xor (x y : Bool) : crcFeedback (x ^^ y) = crcFeedback x ^^^ crcFeedback y := by
  cases x <;> cases y <;> decide

theorem crcBit_xor (a b : Word) : crcBit (a ^^^ b) = crcBit a ^^^ crcBit b := by
  rw [crcBit_eq, crcBit_eq, crcBit_eq, BitVec.ushiftRight_xor_distrib, BitVec.getLsbD_xor, crcFeedback_xor]
  ac_rfl

theorem crcBit_of_low {a : Word} (low : a.getLsbD 0 = false) : crcBit a = a >>> 1 := by
  rw [crcBit, low]
  rfl

/-- The top bit after an inner step is the bit that was shifted out, because the polynomial has its top bit set. -/
theorem getLsbD_crcBit_top (a : Word) : (crcBit a).getLsbD 31 = a.getLsbD 0 := by
  have feedbackTop (out : Bool) : (crcFeedback out).getLsbD 31 = out := by cases out <;> decide
  rw [crcBit_eq, BitVec.getLsbD_xor, feedbackTop, BitVec.getLsbD_ushiftRight, BitVec.getLsbD_of_ge a (1 + 31) (by decide),
    Bool.false_xor]

/-- So an inner step takes no value but 0 to 0. -/
theorem eq_zero_of_crcBit_eq_zero {a : Word} (h : crcBit a = 0) : a = 0 := by
  have low : a.getLsbD 0 = false := by
    rw [← getLsbD_crcBit_top, h]
    exact BitVec.getLsbD_zero
  refine BitVec.eq_of_getLsbD_eq fun k _ => Eq.trans ?_ BitVec.getLsbD_zero.symm
  cases k with
  | zero => exact low
  | succ k =>
    have shifted : (a >>> 1).getLsbD k = false := by
      rw [← crcBit_of_low low, h]
      exact BitVec.getLsbD_zero
    rwa [BitVec.getLsbD_ushiftRight, Nat.add_comm] at shifted

/-! ## The step -/

theorem crcBits_xor (n : Nat) (a b : Word) : crcBits n (a ^^^ b) = crcBits n a ^^^ crcBits n b := by
  induction n generalizing a b with
  | zero => rfl
  | succ n ih => rw [crcBits, crcBit_xor, ih]; rfl

/-- Inner steps on a value whose low bits are 0 are a shift. -/
theorem crcBits_of_low {n : Nat} {a : Word} (low : ∀ k < n, a.getLsbD k = false) : crcBits n a = a >>> n := by
  induction n generalizing a with
  | zero => exact (BitVec.ushiftRight_zero a).symm
  | succ n ih =>
    rw [crcBits, crcBit_of_low (low 0 n.succ_pos), ih, ← BitVec.shiftRight_add, Nat.add_comm]
    intro k hk
    rw [BitVec.getLsbD_ushiftRight, Nat.add_comm]
    exact low (k + 1) (by omega)

theorem eq_zero_of_crcBits_eq_zero {n : Nat} {a : Word} (h : crcBits n a = 0) : a = 0 := by
  induction n generalizing a with
  | zero => exact h
  | succ n ih => exact eq_zero_of_crcBit_eq_zero (ih h)

theorem crcStep_xor (a b : Word) (x y : Byte) : crcStep (a ^^^ b) (x ^^^ y) = crcStep a x ^^^ crcStep b y := by
  rw [crcStep, crcStep, crcStep, ← crcBits_xor, BitVec.setWidth_xor]
  congr 1
  ac_rfl

/-- A value is its low byte and, eight bits up, the rest. -/
theorem word_eq_high_xor_low (a : Word) : a = (a >>> 8 <<< 8) ^^^ (a.extractLsb' 0 8).setWidth 32 := by
  refine BitVec.eq_of_getLsbD_eq fun k hk => ?_
  rw [BitVec.getLsbD_xor, BitVec.getLsbD_shiftLeft, BitVec.getLsbD_ushiftRight, BitVec.getLsbD_setWidth,
    BitVec.getLsbD_extractLsb', Nat.zero_add]
  by_cases low : k < 8
  · simp [low, hk]
  · simp [low, hk, show 8 + (k - 8) = k by omega]

/-- A byte reaches the low eight bits of the accumulator alone. -/
theorem ushiftRight_xor_byte (a : Word) (b : Byte) : (a ^^^ b.setWidth 32) >>> 8 = a >>> 8 := by
  have gone : b.setWidth 32 >>> 8 = 0 := by
    refine BitVec.eq_of_getLsbD_eq fun k _ => Eq.trans ?_ BitVec.getLsbD_zero.symm
    rw [BitVec.getLsbD_ushiftRight, BitVec.getLsbD_setWidth, BitVec.getLsbD_of_ge b (8 + k) (by omega), Bool.and_false]
  rw [BitVec.ushiftRight_xor_distrib, gone]
  exact BitVec.xor_zero

/-- Eight inner steps shift the upper 24 bits down and replace the low byte by its table entry (R83). -/
theorem crcBits_eight (a : Word) : crcBits 8 a = crcTable (a.extractLsb' 0 8) ^^^ (a >>> 8) := by
  have high : crcBits 8 (a >>> 8 <<< 8) = a >>> 8 := by
    rw [crcBits_of_low fun k hk => by rw [BitVec.getLsbD_shiftLeft]; simp [hk]]
    refine BitVec.eq_of_getLsbD_eq fun k hk => ?_
    rw [BitVec.getLsbD_ushiftRight, BitVec.getLsbD_shiftLeft, BitVec.getLsbD_ushiftRight]
    by_cases inside : 8 + k < 32
    · simp [inside]
    · simp [inside, BitVec.getLsbD_of_ge a (8 + k) (by omega)]
  have low : crcTable (a.extractLsb' 0 8) = crcBits 8 ((a.extractLsb' 0 8).setWidth 32) :=
    congrArg (crcBits 8) BitVec.zero_xor
  calc crcBits 8 a = crcBits 8 ((a >>> 8 <<< 8) ^^^ (a.extractLsb' 0 8).setWidth 32) :=
        congrArg (crcBits 8) (word_eq_high_xor_low a)
    _ = (a >>> 8) ^^^ crcTable (a.extractLsb' 0 8) := by rw [crcBits_xor, high, low]
    _ = crcTable (a.extractLsb' 0 8) ^^^ (a >>> 8) := BitVec.xor_comm _ _

/-! ## The fold -/

theorem crcFold_append (a : Word) (s t : List Byte) : crcFold a (s ++ t) = crcFold (crcFold a s) t := by
  induction s generalizing a with
  | nil => rfl
  | cons b s ih => exact ih (crcStep a b)

/-- The fold is linear over exclusive-or, byte by byte (R92). -/
theorem crcFold_xor {s t : List Byte} (sameLength : s.length = t.length) (a b : Word) :
    crcFold a s ^^^ crcFold b t = crcFold (a ^^^ b) (List.zipWith (fun x y => x ^^^ y) s t) := by
  induction s generalizing t a b with
  | nil =>
    cases t with
    | nil => rfl
    | cons y t => cases sameLength
  | cons x s ih =>
    cases t with
    | nil => cases sameLength
    | cons y t =>
      rw [List.zipWith_cons_cons, crcFold, crcFold, crcFold, ih (Nat.succ.inj sameLength), crcStep_xor]

/-- The initial value and the final exclusive-or cancel between two checksums (R92). -/
theorem crc32_xor {s t : List Byte} (sameLength : s.length = t.length) :
    crc32 s ^^^ crc32 t = crcFold 0 (List.zipWith (fun x y => x ^^^ y) s t) := by
  have linear := crcFold_xor sameLength crcOnes crcOnes
  rw [BitVec.xor_self] at linear
  calc crc32 s ^^^ crc32 t
      = (crcFold crcOnes s ^^^ crcFold crcOnes t) ^^^ (crcOnes ^^^ crcOnes) := by rw [crc32, crc32]; ac_rfl
    _ = crcFold crcOnes s ^^^ crcFold crcOnes t := by rw [BitVec.xor_self, BitVec.xor_zero]
    _ = crcFold 0 (List.zipWith (fun x y => x ^^^ y) s t) := linear

/-- The exclusive-or of a sequence with a copy that differs in one byte: 0 but for the difference in that byte. -/
theorem zipWith_xor_changed (p q : List Byte) (b d : Byte) :
    List.zipWith (fun x y => x ^^^ y) (p ++ (b ^^^ d) :: q) (p ++ b :: q) =
      List.replicate p.length 0 ++ d :: List.replicate q.length 0 := by
  have equal (s : List Byte) : List.zipWith (fun x y => x ^^^ y) s s = List.replicate s.length 0 := by
    simp [List.zipWith_self]
  have difference : b ^^^ d ^^^ b = d := by rw [BitVec.xor_comm b d, BitVec.xor_assoc, BitVec.xor_self, BitVec.xor_zero]
  rw [List.zipWith_append rfl, List.zipWith_cons_cons, equal, equal, difference]

/-- Feeding zero bytes takes no value but 0 to 0. -/
theorem crcFold_zeros_eq_zero_iff (a : Word) (n : Nat) : crcFold a (List.replicate n 0) = 0 ↔ a = 0 := by
  have step_zero (a : Word) : crcStep a 0 = 0 ↔ a = 0 := by
    have noByte : a ^^^ (0 : Byte).setWidth 32 = a := BitVec.xor_zero
    rw [crcStep, noByte]
    refine ⟨eq_zero_of_crcBits_eq_zero, ?_⟩
    rintro rfl
    decide
  induction n generalizing a with
  | zero => exact Iff.rfl
  | succ n ih => exact (ih (crcStep a 0)).trans (step_zero a)

/-- A fold from 0 over zero bytes and one other byte is not 0. -/
theorem crcFold_zero_ne_zero (n m : Nat) {d : Byte} (nonzero : d ≠ 0) :
    crcFold 0 (List.replicate n 0 ++ d :: List.replicate m 0) ≠ 0 := by
  rw [crcFold_append, (crcFold_zeros_eq_zero_iff 0 n).mpr rfl, crcFold, Ne, crcFold_zeros_eq_zero_iff]
  intro stepped
  have entered : d.setWidth 32 = 0 := BitVec.zero_xor.symm.trans (eq_zero_of_crcBits_eq_zero stepped)
  refine nonzero (BitVec.eq_of_getLsbD_eq fun k hk => Eq.trans ?_ BitVec.getLsbD_zero.symm)
  have bit := congrArg (BitVec.getLsbD · k) entered
  simpa [hk, show k < 32 by omega] using bit

/-- Changing one byte changes the checksum (R92). -/
theorem crc32_ne_of_changed (p q : List Byte) (b : Byte) {d : Byte} (nonzero : d ≠ 0) :
    crc32 (p ++ (b ^^^ d) :: q) ≠ crc32 (p ++ b :: q) := by
  intro unchanged
  refine crcFold_zero_ne_zero p.length q.length nonzero ?_
  rw [← zipWith_xor_changed p q b d, ← crc32_xor (by simp), unchanged]
  exact BitVec.xor_self

theorem twoPow_ne_zero {k : Nat} (h : k < 8) : BitVec.twoPow 8 k ≠ 0 := by
  interval_cases k <;> decide

end Sys2Proof.Machine
end

section
/-! PROOFS. The obligations about the checksum function (41_crc.md sections 1 and 4). -/

namespace Sys2Proof.Machine

/-- Settles O17: the fold runs through the first sequence and goes on with the second. -/
theorem crcFoldConcatenates : Obligations.CrcFoldConcatenates :=
  crcFold_append

/-- Settles O18: the upper 24 bits of the accumulator are shifted out as they are, and the low byte alone meets the polynomial;
the three entries are computed. -/
theorem crcStepHasTableForm : Obligations.CrcStepHasTableForm := by
  refine ⟨fun a b => ?_, by decide +kernel, by decide +kernel, by decide +kernel⟩
  rw [crcStep, crcBits_eight, ushiftRight_xor_byte, crcTable]

/-- Settles O19: the fold is linear, and no inner step takes a value other than 0 to 0, so a single set bit stays visible. -/
theorem crcDetectsSingleBitErrors : Obligations.CrcDetectsSingleBitErrors :=
  ⟨fun _ _ sameLength => crc32_xor sameLength,
    fun n m _ bit => crcFold_zero_ne_zero n m (twoPow_ne_zero bit),
    fun p q b _ bit => crc32_ne_of_changed p q b (twoPow_ne_zero bit)⟩

/-- Settles O48: both checksums are computed. -/
theorem checksumValues : Obligations.ChecksumValues := by
  unfold Obligations.ChecksumValues
  decide +kernel

end Sys2Proof.Machine
end

section
/-! SUPPORT. Runs of host actions: one lemma for each line of the listings (R66), and the lines that feed the CRC (R67, R91). -/

namespace Sys2Proof.Machine

/-! ## Lines -/

/-- The state in which a run performs an action (log 2): that action is taken off the list, no other is listed, and there is no
reply yet. -/
def State.inRun (s : State) : State := { s with actions := [], reply := .nothing }

theorem hostRun_append_of_next {as : List HostAction} {s t : State} (run : hostRun as s = .next t) (bs : List HostAction) :
    hostRun (as ++ bs) s = hostRun bs t := by
  rw [hostRun_append, run]

/-- A command's line runs the command. -/
theorem hostRun_lineCmd (i : Instr) (s : State) : hostRun (lineCmd i) s = exec i s.inRun := by
  have stepped : step { s with actions := [issue (encode i)] } = exec i s.inRun :=
    (step_issue rfl).trans (runCommand_of_ok (decode_encode i) _)
  rw [lineCmd, hostRun, stepped]
  cases exec i s.inRun <;> rfl

/-- A register's line stores the value, or is ignored (R30). -/
theorem hostRun_lineWr {r : Reg} (notCmd : r ≠ .cmd) (v : Word) (s : State) :
    hostRun (lineWr r v) s = .next (writeReg r v s.inRun) := by
  have stepped : step { s with actions := [.regWrite .word r.offset v] } = .next (writeReg r v s.inRun) :=
    step_regWrite notCmd rfl
  rw [lineWr, hostRun, stepped]
  rfl

theorem hostRun_lineCmd_append {i : Instr} {s t : State} (run : exec i s.inRun = .next t) (as : List HostAction) :
    hostRun (lineCmd i ++ as) s = hostRun as t :=
  hostRun_append_of_next ((hostRun_lineCmd i s).trans run) as

theorem hostRun_lineWr_append {r : Reg} (notCmd : r ≠ .cmd) (v : Word) (s : State) (as : List HostAction) :
    hostRun (lineWr r v ++ as) s = hostRun as (writeReg r v s.inRun) :=
  hostRun_append_of_next (hostRun_lineWr notCmd v s) as

/-- `input` sets SRC and LIM and keeps the other registers and BUF (R67). -/
theorem hostRun_lineInput (addr lim : Word) (s : State) :
    ∃ t, hostRun (lineInput addr lim) s = .next t ∧
      t = { s with src := addr, lim := lim, actions := t.actions, reply := t.reply } :=
  ⟨_, (hostRun_lineWr_append (by decide) addr s _).trans (hostRun_lineWr (by decide) lim _), rfl⟩

/-! ## Pieces of a byte sequence (R91) -/

/-- A piece within bounds is folded into ACC, and BUF stays as it is. -/
theorem hostRun_piece {p : CrcPiece} {s : State} (fits : p.Fits s.params) :
    ∃ t, hostRun p.lines s = .next t ∧ t.acc = crcFold s.acc (p.bytes s.mem) ∧ t.mem = s.mem ∧ t.params = s.params := by
  cases p with
  | imm b => exact ⟨_, (hostRun_lineCmd _ s).trans (exec_crcb b _), rfl, rfl, rfl⟩
  | range addr count lim =>
    refine ⟨commit .crcupd (writeReg .lim lim (writeReg .len count (writeReg .src addr s.inRun).inRun).inRun).inRun, ?_,
      rfl, rfl, rfl⟩
    rw [CrcPiece.lines, lineRange, List.append_assoc, List.append_assoc, hostRun_lineWr_append (by decide),
      hostRun_lineWr_append (by decide), hostRun_lineWr_append (by decide), hostRun_lineCmd]
    exact exec_crcupd_of_inBounds fits

/-- Pieces in order are one fold over all their bytes. -/
theorem hostRun_pieces {ps : List CrcPiece} {s : State} (fits : ∀ p ∈ ps, p.Fits s.params) :
    ∃ t, hostRun (ps.flatMap CrcPiece.lines) s = .next t ∧ t.acc = crcFold s.acc (ps.flatMap (CrcPiece.bytes s.mem)) ∧
      t.mem = s.mem := by
  induction ps generalizing s with
  | nil => exact ⟨s, rfl, rfl, rfl⟩
  | cons p ps ih =>
    obtain ⟨fitsHead, fitsTail⟩ := List.forall_mem_cons.mp fits
    obtain ⟨u, run, acc, mem, params⟩ := hostRun_piece fitsHead
    obtain ⟨t, runTail, accTail, memTail⟩ := ih (s := u) (by rw [params]; exact fitsTail)
    refine ⟨t, ?run, ?acc, memTail.trans mem⟩
    case run => rw [List.flatMap_cons, hostRun_append_of_next run, runTail]
    case acc => rw [accTail, acc, mem, List.flatMap_cons, crcFold_append]

/-! ## Bytes by CRCB (R67) -/

/-- Bytes fed by CRCB are folded into ACC; of the other fields only the result, the list and the reply change. -/
theorem hostRun_crcbs (bs : List Byte) (s : State) :
    ∃ t, hostRun (bs.flatMap fun b => lineCmd (.crcb b)) s = .next t ∧
      t = { s with
        acc := crcFold s.acc bs, status := t.status, einfo := t.einfo, actions := t.actions, reply := t.reply } := by
  induction bs generalizing s with
  | nil => exact ⟨s, rfl, rfl⟩
  | cons b bs ih =>
    obtain ⟨t, run, frame⟩ := ih (commit (.crcb b) s.inRun)
    exact ⟨t, (hostRun_lineCmd_append (exec_crcb b s.inRun) _).trans run, frame⟩

end Sys2Proof.Machine
end

section
/-! PROOFS. The obligations about the two interfaces to the checksum (41_crc.md section 4). -/

namespace Sys2Proof.Machine

/-- Settles O20: CRCINIT starts the fold of `crc32`, the pieces are one fold over their bytes, and CRCFIN ends it. -/
theorem incrementalEqualsOneShot : Obligations.IncrementalEqualsOneShot := by
  intro s ps fits
  obtain ⟨t, run, acc, mem⟩ := hostRun_pieces (s := commit .crcinit s.inRun) fits
  have runInit : exec .crcinit s.inRun = .next (commit .crcinit s.inRun) := rfl
  refine ⟨commit .crcfin t.inRun, ?run, ?crc, rfl, mem⟩
  case run =>
    rw [List.append_assoc, hostRun_lineCmd_append runInit, hostRun_append_of_next run, hostRun_lineCmd]
    rfl
  case crc => exact congrArg (· ^^^ crcOnes) acc

/-- Settles O21: chunkcrc folds the type bytes and then the range at SRC, which SER found in bounds. -/
theorem chunkcrcGivesTheCrcOfSer : Obligations.ChunkcrcGivesTheCrcOfSer := by
  intro s t run success
  obtain ⟨⟨inBounds, -⟩, -, -, rfl⟩ := eq_serCommit_of_exec_ser run success
  obtain ⟨u, runType, frame⟩ := hostRun_crcbs (bytesBe32 s.type) (commit .crcinit s.inRun)
  have sourceInBounds : u.inRun.SourceInBounds := by
    rw [frame]
    exact inBounds
  have runInit : exec .crcinit s.inRun = .next (commit .crcinit s.inRun) := rfl
  have runRange : exec .crcupd u.inRun = .next (commit .crcupd u.inRun) := exec_crcupd_of_inBounds sourceInBounds
  have mem : u.mem = s.mem := congrArg (·.mem) frame
  refine ⟨commit .crcfin (commit .crcupd u.inRun).inRun, ?run, ?crc, rfl, mem⟩
  case run =>
    rw [lineChunkcrc, List.append_assoc, List.append_assoc, hostRun_lineCmd_append runInit, lineCrc4,
      hostRun_append_of_next runType, hostRun_lineCmd_append runRange, hostRun_lineCmd]
    rfl
  case crc =>
    have acc : u.acc = crcFold crcOnes (bytesBe32 s.type) := congrArg (·.acc) frame
    have source : u.inRun.sourceBytes = s.sourceBytes := by
      rw [frame]
      rfl
    change crcFold u.acc u.inRun.sourceBytes ^^^ crcOnes = (serCommit s).crc
    rw [acc, source, serCommit_crc, crc32, crcFold_append]

end Sys2Proof.Machine
end

section
/-! SUPPORT. Wire records in BUF (R93): what a record's bytes say about its fields, what DES delivers from one, and what one
changed byte does to one. -/

namespace Sys2Proof.Machine

/-! ## Words read from BUF (R40) -/

theorem bytesBe32_readBe32 (m : Mem) (a : Nat) : bytesBe32 (m.readBe32 a) = m.readBytes a 4 :=
  bytesBe32_be32 _ _ _ _

theorem bytesBe32_injective : Function.Injective bytesBe32 := by
  intro v w same
  simp only [bytesBe32, List.cons.injEq, and_true] at same
  obtain ⟨byte0, byte1, byte2, byte3⟩ := same
  rw [← be32_wireByte v, ← be32_wireByte w, byte0, byte1, byte2, byte3]

theorem readBe32_of_readBytes {m : Mem} {a : Nat} {v : Word} (h : m.readBytes a 4 = bytesBe32 v) : m.readBe32 a = v :=
  bytesBe32_injective ((bytesBe32_readBe32 m a).trans h)

/-- Equal words stand in equal bytes. -/
theorem read_eq_of_readBe32_eq {m k : Mem} {a x : Nat} (same : m.readBe32 a = k.readBe32 a) (from_a : a ≤ x)
    (below : x < a + 4) : m.read x = k.read x := by
  have bytes : m.readBytes a 4 = k.readBytes a 4 := by
    rw [← bytesBe32_readBe32, same, bytesBe32_readBe32]
  have atIndex := congrArg (·[x - a]?) bytes
  simpa [Mem.getElem_readBytes, show x - a < 4 by omega, show a + (x - a) = x by omega] using atIndex

/-- A word in BUF is four letters when its four bytes are. -/
theorem fourLetters_readBe32_iff (m : Mem) (a : Nat) :
    FourLetters (m.readBe32 a) ↔ ∀ x, a ≤ x → x < a + 4 → Letter (m.read x) := by
  have bytes := bytesBe32_readBe32 m a
  rw [Mem.readBytes_four] at bytes
  simp only [bytesBe32, List.cons.injEq, and_true] at bytes
  obtain ⟨byte0, byte1, byte2, byte3⟩ := bytes
  have places : FourLetters (m.readBe32 a) ↔ Letter (m.read a) ∧ Letter (m.read (a + 1)) ∧ Letter (m.read (a + 2)) ∧
      Letter (m.read (a + 3)) := by
    rw [← byte0, ← byte1, ← byte2, ← byte3]
    exact Iff.rfl
  rw [places]
  constructor
  · rintro ⟨letter0, letter1, letter2, letter3⟩ x from_a below
    obtain rfl | rfl | rfl | rfl : x = a ∨ x = a + 1 ∨ x = a + 2 ∨ x = a + 3 := by omega
    all_goals assumption
  · intro letters
    exact ⟨letters a (by omega) (by omega), letters (a + 1) (by omega) (by omega), letters (a + 2) (by omega) (by omega),
      letters (a + 3) (by omega) (by omega)⟩

/-! ## Records -/

/-- The record of R93 with this type and payload stands in BUF from index `a` on. -/
def Mem.HoldsRecord (m : Mem) (a : Nat) (type : Word) (payload : List Byte) : Prop :=
  m.readBytes a (encodedLength payload.length) = wireRecord type payload

theorem length_wireRecord (type : Word) (payload : List Byte) :
    (wireRecord type payload).length = encodedLength payload.length := by
  simp only [wireRecord, List.length_append, length_bytesBe32, encodedLength]
  omega

/-- The four fields of a record, by their places (R93). -/
theorem Mem.HoldsRecord.fields {m : Mem} {a : Nat} {type : Word} {payload : List Byte} (holds : m.HoldsRecord a type payload) :
    m.readBe32 a = BitVec.ofNat 32 payload.length ∧ m.readBe32 (a + 4) = type ∧
      m.readBytes (a + 8) payload.length = payload ∧ m.readBe32 (a + 8 + payload.length) = chunkCrc type payload := by
  have split : encodedLength payload.length = 4 + 4 + payload.length + 4 := by
    unfold encodedLength
    omega
  rw [Mem.HoldsRecord, split, Mem.readBytes_add, Mem.readBytes_add, Mem.readBytes_add, wireRecord] at holds
  obtain ⟨upToPayload, crc⟩ := List.append_inj holds (by simp)
  obtain ⟨header, payloadBytes⟩ := List.append_inj upToPayload (by simp)
  obtain ⟨length, typeBytes⟩ := List.append_inj header (by simp)
  exact ⟨readBe32_of_readBytes length, readBe32_of_readBytes typeBytes, payloadBytes,
    readBe32_of_readBytes ((congrArg (m.readBytes · 4) (Nat.add_assoc a 8 payload.length)).trans crc)⟩

/-- A successful SER leaves the record of its type and payload at the old DST (R95). -/
theorem holdsRecord_serCommit (s : State) : (serCommit s).mem.HoldsRecord s.dst.toNat s.type s.sourceBytes := by
  rw [Mem.HoldsRecord, wireRecord, State.length_sourceBytes, readBytes_serCommit, serCommit_crc, BitVec.ofNat_toNat,
    BitVec.setWidth_eq]

/-! ## What DES delivers -/

/-- The recomputed CRC is the chunk CRC of the type and the payload on the wire (R84, R100). -/
theorem recomputedCrc_eq_chunkCrc (s : State) :
    s.recomputedCrc = chunkCrc s.wireType (s.mem.readBytes (s.src.toNat + 8) s.wireLength) := by
  rw [State.recomputedCrc, chunkCrc, State.wireType, bytesBe32_readBe32]

/-- The state `t` after a DES from `s` that delivered the record with this type and payload (R100, step 8). -/
structure Delivered (s t : State) (chunkType : Word) (payload : List Byte) : Prop where
  status : t.status = 0
  type : t.type = chunkType
  len : t.len.toNat = payload.length
  crc : t.crc = chunkCrc chunkType payload
  pay : t.pay.toNat = s.src.toNat + 8
  elen : t.elen.toNat = encodedLength payload.length
  src : t.src.toNat = s.src.toNat + encodedLength payload.length
  bytes : t.mem.readBytes t.pay.toNat t.len.toNat = payload
  mem : t.mem = s.mem
  lim : t.lim = s.lim
  params : t.params = s.params

/-- A DES that passes delivers the record on the wire. -/
theorem delivered_desCommit {s : State} (legal : s.params.wf = true) (passes : s.DesPasses) :
    Delivered s (desCommit s) s.wireType (s.mem.readBytes (s.src.toNat + 8) s.wireLength) := by
  obtain ⟨pay, elen, src⟩ := toNat_desCommit_sums legal passes.inBounds passes.complete
  have len := toNat_desCommit_len s
  have length := s.mem.length_readBytes (s.src.toNat + 8) s.wireLength
  exact
    { status := rfl
      type := rfl
      len := len.trans length.symm
      crc := recomputedCrc_eq_chunkCrc s
      pay := pay
      elen := by rw [elen, length]
      src := by rw [src, length]
      bytes := by rw [pay, len]; rfl
      mem := rfl
      lim := rfl
      params := rfl }

/-- DES delivers a record that stands complete at SRC, below LIM. -/
theorem exec_des_of_holdsRecord {s : State} {type : Word} {payload : List Byte} (legal : s.params.wf = true)
    (limInBuf : s.lim.toNat ≤ s.params.bufSize) (letters : FourLetters type)
    (holds : s.mem.HoldsRecord s.src.toNat type payload)
    (belowLim : s.src.toNat + encodedLength payload.length ≤ s.lim.toNat) :
    ∃ t, exec .des s = .next t ∧ Delivered s t type payload := by
  obtain ⟨lengthField, typeField, payloadField, crcField⟩ := holds.fields
  have fits : payload.length < 2 ^ 32 := by
    have := s.lim.isLt
    unfold encodedLength at belowLim
    omega
  have length : s.wireLength = payload.length := by
    rw [State.wireLength, lengthField, BitVec.toNat_ofNat, Nat.mod_eq_of_lt fits]
  have wireType : s.wireType = type := typeField
  have wirePayload : s.mem.readBytes (s.src.toNat + 8) s.wireLength = payload := by rw [length, payloadField]
  have passes : s.DesPasses := by
    refine ⟨⟨limInBuf, (Nat.le_add_right _ _).trans belowLim⟩, ?complete, wireType ▸ letters, ?verified⟩
    case complete =>
      rw [length]
      exact Nat.le_sub_of_add_le' belowLim
    case verified => rw [recomputedCrc_eq_chunkCrc, wirePayload, wireType, State.wireCrc, length, crcField]
  have delivered := delivered_desCommit legal passes
  rw [wirePayload, wireType] at delivered
  exact ⟨desCommit s, exec_des_of_passes passes, delivered⟩

end Sys2Proof.Machine
end

section
/-! PROOFS. The obligations about one record: delivery and the round trip (43_deserialize.md section 3). -/

namespace Sys2Proof.Machine

/-- Settles O26: STATUS 0 means that every check passed, the CRC comparison among them; an error changes nothing else. -/
theorem desDeliversOnlyVerifiedRecords : Obligations.DesDeliversOnlyVerifiedRecords := by
  intro s t legal run
  obtain ⟨passes, rfl⟩ | ⟨e, -, rfl⟩ := eq_commit_or_raise_of_exec run
  · have delivered := delivered_desCommit legal passes
    obtain ⟨pay, elen, src⟩ := toNat_desCommit_sums legal passes.inBounds passes.complete
    have len := toNat_desCommit_len s
    rw [commit]
    refine ⟨fun _ => ⟨?crc, ?stored, passes.letters, ?elen, src.trans (congrArg _ elen.symm), ?lim⟩,
      fun failed => absurd delivered.status failed⟩
    case crc => rw [delivered.bytes, delivered.crc, delivered.type, chunkCrc]
    case stored =>
      rw [pay, len]
      exact passes.verified
    case elen => rw [elen, len, encodedLength]
    case lim =>
      rw [src, delivered.lim]
      exact Nat.add_le_of_le_sub' passes.inBounds.right passes.complete
  · exact ⟨fun success => absurd success e.code_ne_zero, fun _ => ⟨rfl, rfl, rfl, rfl, rfl, rfl⟩⟩

/-- Settles O27: SER leaves a record at the old DST, and DES delivers a record that stands complete below LIM. -/
theorem serThenDesRoundTrip : Obligations.SerThenDesRoundTrip := by
  intro s t lim legal run success recordBelowLim limInBuf
  obtain ⟨-, letters, -, rfl⟩ := eq_serCommit_of_exec_ser run success
  obtain ⟨v, runInput, frame⟩ := hostRun_lineInput s.dst lim (serCommit s)
  have srcInput : v.inRun.src = s.dst := congrArg (·.inRun.src) frame
  have limInput : v.inRun.lim = lim := congrArg (·.inRun.lim) frame
  have memInput : v.inRun.mem = (serCommit s).mem := congrArg (·.inRun.mem) frame
  have paramsInput : v.inRun.params = s.params := congrArg (·.inRun.params) frame
  have holds : v.inRun.mem.HoldsRecord v.inRun.src.toNat s.type s.sourceBytes := by
    rw [memInput, srcInput]
    exact holdsRecord_serCommit s
  have belowLim : v.inRun.src.toNat + encodedLength s.sourceBytes.length ≤ v.inRun.lim.toNat := by
    rw [srcInput, limInput, State.length_sourceBytes, encodedLength, ← Nat.add_assoc]
    exact recordBelowLim
  obtain ⟨u, runDes, delivered⟩ := exec_des_of_holdsRecord (paramsInput ▸ legal)
    (by rw [limInput, paramsInput]; exact limInBuf) letters holds belowLim
  have len := delivered.len
  have elen := delivered.elen
  have src := delivered.src
  rw [State.length_sourceBytes] at len elen src
  rw [srcInput] at src
  refine ⟨u, ?run, delivered.status, delivered.type, BitVec.eq_of_toNat_eq len, delivered.crc, ?pay, delivered.bytes, elen,
    src.trans (Nat.add_assoc _ _ _).symm⟩
  case run => rw [hostRun_append_of_next runInput, hostRun_lineCmd, runDes]
  case pay => rw [delivered.pay, srcInput]

end Sys2Proof.Machine
end

section
/-! SUPPORT. One changed byte in a range of BUF, and what it does to a record that DES accepts (R105). -/

namespace Sys2Proof.Machine

/-- A range around one of its bytes. -/
theorem Mem.readBytes_around (m : Mem) {c a n : Nat} (from_c : c ≤ a) (below : a < c + n) :
    m.readBytes c n = m.readBytes c (a - c) ++ m.read a :: m.readBytes (a + 1) (c + n - (a + 1)) := by
  have length : n = (a - c) + ((c + n - (a + 1)) + 1) := by omega
  conv_lhs => rw [length, Mem.readBytes_add, Nat.add_sub_cancel' from_c, Mem.readBytes_succ]

/-- Changing one byte of a range changes the range's checksum. -/
theorem crc32_readBytes_write_ne (m : Mem) {c a n : Nat} (from_c : c ≤ a) (below : a < c + n) {d : Byte} (nonzero : d ≠ 0) :
    crc32 ((m.write a (m.read a ^^^ d)).readBytes c n) ≠ crc32 (m.readBytes c n) := by
  have kept (e k : Nat) (outside : a < e ∨ e + k ≤ a) :
      (m.write a (m.read a ^^^ d)).readBytes e k = m.readBytes e k :=
    Mem.readBytes_congr fun x _ _ => Mem.read_write_other m _ (by omega)
  rw [Mem.readBytes_around m from_c below, Mem.readBytes_around _ from_c below, Mem.read_write_same,
    kept c (a - c) (by omega), kept (a + 1) (c + n - (a + 1)) (by omega)]
  exact crc32_ne_of_changed _ _ _ nonzero

/-- Changing one byte of a word in BUF changes the word. -/
theorem readBe32_write_ne (m : Mem) {c a : Nat} (from_c : c ≤ a) (below : a < c + 4) {d : Byte} (nonzero : d ≠ 0) :
    (m.write a (m.read a ^^^ d)).readBe32 c ≠ m.readBe32 c := by
  intro same
  have unchanged := read_eq_of_readBe32_eq same from_c below
  rw [Mem.read_write_same] at unchanged
  exact nonzero (by simpa using unchanged)

/-- Bit 5 is the case of a letter: a letter with that bit flipped is a letter (R25, R105). -/
theorem letter_xor_case {b : Byte} (letter : Letter b) : Letter (b ^^^ BitVec.twoPow 8 5) := by
  revert b
  decide

/-! ## A changed byte at or behind the type field -/

/-- `s` with the byte at index `a` of BUF changed by exclusive-or with `d`. -/
def State.changeByte (s : State) (a : Nat) (d : Byte) : State :=
  { s with mem := s.mem.write a (s.mem.read a ^^^ d) }

@[simp] theorem changeByte_src (s : State) (a : Nat) (d : Byte) : (s.changeByte a d).src = s.src := rfl

theorem readBytes_changeByte_outside (s : State) {a c n : Nat} (d : Byte) (outside : a < c ∨ c + n ≤ a) :
    (s.changeByte a d).mem.readBytes c n = s.mem.readBytes c n :=
  Mem.readBytes_congr fun x _ _ => Mem.read_write_other s.mem _ (by omega)

theorem readBe32_changeByte_outside (s : State) {a c : Nat} (d : Byte) (outside : a < c ∨ c + 4 ≤ a) :
    (s.changeByte a d).mem.readBe32 c = s.mem.readBe32 c :=
  Mem.readBe32_congr fun x _ _ => Mem.read_write_other s.mem _ (by omega)

theorem wireLength_changeByte {s : State} {a : Nat} (behindLength : s.src.toNat + 4 ≤ a) (d : Byte) :
    (s.changeByte a d).wireLength = s.wireLength := by
  rw [State.wireLength, changeByte_src, readBe32_changeByte_outside s d (.inr behindLength), State.wireLength]

/-- The type is four letters still exactly when the changed byte stands behind the type field or is a letter. -/
theorem fourLetters_wireType_changeByte_iff {s : State} {a : Nat} {d : Byte} (letters : FourLetters s.wireType)
    (behindLength : s.src.toNat + 4 ≤ a) :
    FourLetters (s.changeByte a d).wireType ↔ s.src.toNat + 8 ≤ a ∨ Letter (s.mem.read a ^^^ d) := by
  rw [State.wireType, fourLetters_readBe32_iff] at letters ⊢
  constructor
  · intro letters'
    refine or_iff_not_imp_left.mpr fun inType => ?_
    have letter := letters' a behindLength (by rw [changeByte_src]; omega)
    rwa [State.changeByte, Mem.read_write_same] at letter
  · intro typeKept x from_type below
    rw [changeByte_src] at from_type below
    by_cases same : a = x
    · subst same
      rw [State.changeByte, Mem.read_write_same]
      exact typeKept.resolve_left (by omega)
    · rw [State.changeByte, Mem.read_write_other _ _ same]
      exact letters x from_type below

/-- The recomputed CRC covers the type and the payload, one range of bytes (R84). -/
theorem recomputedCrc_eq_range (s : State) :
    s.recomputedCrc = crc32 (s.mem.readBytes (s.src.toNat + 4) (4 + s.wireLength)) := by
  rw [State.recomputedCrc, Mem.readBytes_add]

/-- One changed byte in the type, payload or CRC field changes the recomputed CRC or the stored one, and not both (R105). -/
theorem recomputedCrc_changeByte_ne {s : State} {a : Nat} {d : Byte} (verified : s.recomputedCrc = s.wireCrc)
    (behindLength : s.src.toNat + 4 ≤ a) (inRecord : a < s.src.toNat + s.wireLength + 12) (nonzero : d ≠ 0) :
    (s.changeByte a d).recomputedCrc ≠ (s.changeByte a d).wireCrc := by
  have length := wireLength_changeByte behindLength d
  rw [recomputedCrc_eq_range, State.wireCrc] at verified ⊢
  rw [length, changeByte_src]
  by_cases covered : a < s.src.toNat + 8 + s.wireLength
  · rw [readBe32_changeByte_outside s d (.inl (by omega)), ← verified]
    exact crc32_readBytes_write_ne s.mem behindLength (by omega) nonzero
  · rw [readBytes_changeByte_outside s d (.inr (by omega)), verified]
    exact (readBe32_write_ne s.mem (not_lt.mp covered) (by omega) nonzero).symm

/-- After one changed byte DES of an accepted record fails: with E_CRC if the type is four letters still, else with E_TYPE. -/
theorem exec_des_changeByte {s : State} {a : Nat} {d : Byte} (passes : s.DesPasses) (behindLength : s.src.toNat + 4 ≤ a)
    (inRecord : a < s.src.toNat + s.wireLength + 12) (nonzero : d ≠ 0) :
    ∃ u, exec .des (s.changeByte a d) = .next u ∧
      (FourLetters (s.changeByte a d).wireType → u.status = 3) ∧
      (¬ FourLetters (s.changeByte a d).wireType → u.status = 1) := by
  have mismatch := recomputedCrc_changeByte_ne passes.verified behindLength inRecord nonzero
  have complete : encodedLength (s.changeByte a d).wireLength ≤ (s.changeByte a d).avail := by
    rw [wireLength_changeByte behindLength]
    exact passes.complete
  refine ⟨_, exec_des_of_complete passes.inBounds complete, fun letters => ?_, fun notLetters => ?_⟩
  · rw [if_neg (not_not.mpr letters), if_pos mismatch, raise_status, Err.code]
  · rw [if_pos notLetters, raise_status, Err.code]

end Sys2Proof.Machine
end

section
/-! PROOFS. The obligation about flipped bits (43_deserialize.md section 3). -/

namespace Sys2Proof.Machine

/-- Settles O28: a flipped bit changes exactly one of the two CRCs that DES compares, and DES comes to the comparison exactly
when no type byte stopped being a letter, which a flip of bit 5 never causes. -/
theorem singleBitFlipsAreDetected : Obligations.SingleBitFlipsAreDetected := by
  rintro s t a k b - run success bit behindLength inRecord rfl
  obtain ⟨passes, rfl⟩ := eq_commit_of_success run success
  change a < s.src.toNat + (desCommit s).len.toNat + 12 at inRecord
  rw [toNat_desCommit_len] at inRecord
  obtain ⟨u, runFlipped, crcError, typeError⟩ := exec_des_changeByte passes behindLength inRecord (twoPow_ne_zero bit)
  have letters := fourLetters_wireType_changeByte_iff (d := BitVec.twoPow 8 k) passes.letters behindLength
  refine ⟨u, runFlipped, fun ⟨inType, notLetter⟩ => ?type, fun typeKept => crcError (letters.mpr typeKept), ?case⟩
  case type =>
    exact typeError (letters.not.mpr (not_or.mpr ⟨inType.not_ge, notLetter⟩))
  case case =>
    rintro rfl
    refine crcError (letters.mpr (or_iff_not_imp_left.mpr fun inType => letter_xor_case ?_))
    have wireLetters := passes.letters
    rw [State.wireType, fourLetters_readBe32_iff] at wireLetters
    exact wireLetters a behindLength (by omega)

end Sys2Proof.Machine
end

section
/-! SUPPORT. Several records one after another in BUF, written by SER or walked by DES (R97, R106). -/

namespace Sys2Proof.Machine

/-! ## Writing records (R97) -/

/-- TYPE, LEN and SRC of one record that the host has SER write. -/
abbrev SerJob := Word × Word × Word

/-- The bytes that the records of the jobs take. -/
def jobsLength (jobs : List SerJob) : Nat := (jobs.map fun j => j.2.1.toNat + 12).sum

/-- The records of the jobs, their payloads as they stand in `m`. -/
def jobsBytes (m : Mem) (jobs : List SerJob) : List Byte :=
  jobs.flatMap fun j => wireRecord j.1 (m.readBytes j.2.2.toNat j.2.1.toNat)

/-- A job whose record ends at `stop` and whose payload no SER since DST stood at `dst` has overwritten: four letters, and a
payload below LIM that is empty or stands before `dst` or from `stop` on. -/
def SerJob.Fits (s : State) (stop : Nat) (j : SerJob) : Prop :=
  FourLetters j.1 ∧ j.2.2.toNat + j.2.1.toNat ≤ s.lim.toNat ∧
    (j.2.1.toNat = 0 ∨ j.2.2.toNat + j.2.1.toNat ≤ s.dst.toNat ∨ stop ≤ j.2.2.toNat)

/-- Every job fits, its record standing after those of the jobs before it. -/
def JobsFit (s : State) (jobs : List SerJob) : Prop :=
  ∀ (k : Nat) (j : SerJob), jobs[k]? = some j → j.Fits s (s.dst.toNat + jobsLength (jobs.take (k + 1)))

theorem jobsLength_cons (j : SerJob) (jobs : List SerJob) :
    jobsLength (j :: jobs) = encodedLength j.2.1.toNat + jobsLength jobs := rfl

/-- The state in which SER runs for a job. -/
def State.forJob (s : State) (j : SerJob) : State :=
  { s with type := j.1, len := j.2.1, src := j.2.2, actions := [], reply := .nothing }

theorem hostRun_serLines (j : SerJob) (s : State) : hostRun (serLines j.1 j.2.1 j.2.2) s = exec .ser (s.forJob j) := by
  rw [serLines, List.append_assoc, List.append_assoc, hostRun_lineWr_append (by decide), hostRun_lineWr_append (by decide),
    hostRun_lineWr_append (by decide), hostRun_lineCmd]
  rfl

/-- A job that fits passes every check of SER. -/
theorem passes_ser_forJob {s : State} {j : SerJob} (limInBuf : s.lim.toNat ≤ s.params.bufSize)
    (room : s.dst.toNat + encodedLength j.2.1.toNat ≤ s.params.bufSize)
    (fits : j.Fits s (s.dst.toNat + encodedLength j.2.1.toNat)) : (s.forJob j).Passes .ser := by
  obtain ⟨letters, belowLim, apart⟩ := fits
  refine ⟨⟨⟨limInBuf, belowLim⟩, room⟩, letters, fun ⟨nonempty, srcBelow, dstBelow⟩ => ?_⟩
  change 0 < j.2.1.toNat at nonempty
  change j.2.2.toNat < s.dst.toNat + encodedLength j.2.1.toNat at srcBelow
  change s.dst.toNat < j.2.2.toNat + j.2.1.toNat at dstBelow
  omega

/-- A payload outside the record that SER wrote reads as before. -/
theorem payload_serCommit_forJob {s : State} {j k : SerJob}
    (apart : k.2.1.toNat = 0 ∨ k.2.2.toNat + k.2.1.toNat ≤ s.dst.toNat ∨
      s.dst.toNat + encodedLength j.2.1.toNat ≤ k.2.2.toNat) :
    (serCommit (s.forJob j)).mem.readBytes k.2.2.toNat k.2.1.toNat = s.mem.readBytes k.2.2.toNat k.2.1.toNat := by
  refine Mem.readBytes_congr fun x above below => read_serCommit_outside ?_
  change x < s.dst.toNat ∨ s.dst.toNat + encodedLength j.2.1.toNat ≤ x
  omega

/-- After the first job's record the other jobs fit, with DST at its end, and their payloads read as before. -/
theorem jobsFit_tail {s : State} {j : SerJob} {jobs : List SerJob} (fit : JobsFit s (j :: jobs))
    (dst : (serCommit (s.forJob j)).dst.toNat = s.dst.toNat + encodedLength j.2.1.toNat) :
    JobsFit (serCommit (s.forJob j)) jobs ∧ jobsBytes (serCommit (s.forJob j)).mem jobs = jobsBytes s.mem jobs := by
  have later {k : Nat} {i : SerJob} (listed : jobs[k]? = some i) :
      i.Fits s (s.dst.toNat + (encodedLength j.2.1.toNat + jobsLength (jobs.take (k + 1)))) := fit (k + 1) i listed
  constructor
  · intro k i listed
    obtain ⟨letters, belowLim, apart⟩ := later listed
    refine ⟨letters, belowLim, ?_⟩
    rw [dst]
    omega
  · refine List.flatMap_congr fun i mem => ?_
    obtain ⟨k, listed⟩ := List.mem_iff_getElem?.mp mem
    obtain ⟨-, -, apart⟩ := later listed
    rw [payload_serCommit_forJob (by omega)]

/-- SER for each of the jobs writes their records one after another (R97). -/
theorem hostRun_jobs {s : State} {jobs : List SerJob} (legal : s.params.wf = true) (limInBuf : s.lim.toNat ≤ s.params.bufSize)
    (room : s.dst.toNat + jobsLength jobs ≤ s.params.bufSize) (fit : JobsFit s jobs) :
    ∃ t, hostRun (jobs.flatMap fun j => serLines j.1 j.2.1 j.2.2) s = .next t ∧
      t.dst.toNat = s.dst.toNat + jobsLength jobs ∧
      t.mem.readBytes s.dst.toNat (jobsLength jobs) = jobsBytes s.mem jobs ∧
      ∀ a, a < s.dst.toNat ∨ s.dst.toNat + jobsLength jobs ≤ a → t.mem.read a = s.mem.read a := by
  induction jobs generalizing s with
  | nil => exact ⟨s, rfl, rfl, rfl, fun _ _ => rfl⟩
  | cons j jobs ih =>
    rw [jobsLength_cons] at room ⊢
    have passes : (s.forJob j).Passes .ser := passes_ser_forJob limInBuf (by omega) (fit 0 j rfl)
    have dst : (serCommit (s.forJob j)).dst.toNat = s.dst.toNat + encodedLength j.2.1.toNat :=
      toNat_serCommit_dst legal passes.left
    have record : (serCommit (s.forJob j)).mem.readBytes s.dst.toNat (encodedLength j.2.1.toNat) =
        wireRecord j.1 (s.mem.readBytes j.2.2.toNat j.2.1.toNat) := by
      have holds := holdsRecord_serCommit (s.forJob j)
      rwa [Mem.HoldsRecord, State.length_sourceBytes] at holds
    obtain ⟨fitTail, payloads⟩ := jobsFit_tail fit dst
    obtain ⟨t, run, dstTail, bytesTail, outsideTail⟩ :=
      ih (s := serCommit (s.forJob j)) legal limInBuf (by rw [dst, Nat.add_assoc]; exact room) fitTail
    rw [dst] at dstTail bytesTail outsideTail
    refine ⟨t, ?run, dstTail.trans (Nat.add_assoc _ _ _), ?bytes, fun a outside => ?outside⟩
    case run =>
      rw [List.flatMap_cons, hostRun_append_of_next ((hostRun_serLines j s).trans (exec_ser_of_passes passes)), run]
    case bytes =>
      rw [Mem.readBytes_add, bytesTail, payloads,
        Mem.readBytes_congr (a := s.dst.toNat) fun x _ below => outsideTail x (.inl below), record]
      rfl
    case outside =>
      have outsideRecord : a < s.dst.toNat ∨ s.dst.toNat + encodedLength j.2.1.toNat ≤ a := by omega
      exact (outsideTail a (by omega)).trans (read_serCommit_outside (s := s.forJob j) outsideRecord)

/-! ## Walking records (R106) -/

/-- The bytes of records that stand one after another. -/
def recordsBytes (recs : List (Word × List Byte)) : List Byte := recs.flatMap fun r => wireRecord r.1 r.2

theorem recordsBytes_cons (r : Word × List Byte) (recs : List (Word × List Byte)) :
    recordsBytes (r :: recs) = wireRecord r.1 r.2 ++ recordsBytes recs := rfl

theorem length_recordsBytes_cons (r : Word × List Byte) (recs : List (Word × List Byte)) :
    (recordsBytes (r :: recs)).length = encodedLength r.2.length + (recordsBytes recs).length := by
  rw [recordsBytes_cons, List.length_append, length_wireRecord]

/-- No record is empty, so no bytes means no records. -/
theorem length_recordsBytes_eq_zero_iff (recs : List (Word × List Byte)) : (recordsBytes recs).length = 0 ↔ recs = [] := by
  cases recs with
  | nil => exact iff_of_true rfl rfl
  | cons r recs =>
    refine iff_of_false ?_ (List.cons_ne_nil r recs)
    rw [length_recordsBytes_cons, encodedLength]
    omega

/-- So the first `k` records take all the bytes only if they are all the records. -/
theorem length_recordsBytes_take_eq_iff (recs : List (Word × List Byte)) (k : Nat) :
    (recordsBytes (recs.take k)).length = (recordsBytes recs).length ↔ recs.length ≤ k := by
  have split : (recordsBytes recs).length = (recordsBytes (recs.take k)).length + (recordsBytes (recs.drop k)).length := by
    rw [← List.length_append, recordsBytes, recordsBytes, recordsBytes, ← List.flatMap_append, List.take_append_drop]
  rw [split, left_eq_add, length_recordsBytes_eq_zero_iff, List.drop_eq_nil_iff]

/-- The records stand one after another from SRC to LIM, and each type is four letters. -/
structure HoldsRecords (s : State) (recs : List (Word × List Byte)) : Prop where
  letters : ∀ r ∈ recs, FourLetters r.1
  limInBuf : s.lim.toNat ≤ s.params.bufSize
  ends : s.src.toNat + (recordsBytes recs).length = s.lim.toNat
  bytes : s.mem.readBytes s.src.toNat (recordsBytes recs).length = recordsBytes recs

theorem HoldsRecords.inRun {s : State} {recs : List (Word × List Byte)} (holds : HoldsRecords s recs) :
    HoldsRecords s.inRun recs :=
  ⟨holds.letters, holds.limInBuf, holds.ends, holds.bytes⟩

/-- DES delivers the first of the records and leaves the others from the new SRC to LIM (R106). -/
theorem exec_des_of_holdsRecords {s : State} {r : Word × List Byte} {recs : List (Word × List Byte)}
    (legal : s.params.wf = true) (holds : HoldsRecords s (r :: recs)) :
    ∃ t, exec .des s = .next t ∧ Delivered s t r.1 r.2 ∧ HoldsRecords t recs := by
  obtain ⟨letters, limInBuf, ends, bytes⟩ := holds
  obtain ⟨lettersHead, lettersTail⟩ := List.forall_mem_cons.mp letters
  rw [length_recordsBytes_cons] at ends bytes
  rw [Mem.readBytes_add, recordsBytes_cons] at bytes
  obtain ⟨bytesHead, bytesTail⟩ := List.append_inj bytes (by rw [Mem.length_readBytes, length_wireRecord])
  obtain ⟨t, run, delivered⟩ := exec_des_of_holdsRecord legal limInBuf lettersHead bytesHead (by omega)
  refine ⟨t, run, delivered, lettersTail, ?limInBuf, ?ends, ?bytes⟩
  case limInBuf => rw [delivered.lim, delivered.params]; exact limInBuf
  case ends => rw [delivered.src, delivered.lim, Nat.add_assoc]; exact ends
  case bytes => rw [delivered.mem, delivered.src]; exact bytesTail

/-- The DES number `n` of a walk delivers record number `n` and leaves SRC at that record's end. -/
theorem hostRun_walk {s : State} {recs : List (Word × List Byte)} {n : Nat} {type : Word} {payload : List Byte}
    (legal : s.params.wf = true) (holds : HoldsRecords s recs) (listed : recs[n]? = some (type, payload)) :
    ∃ t, hostRun ((List.replicate (n + 1) .des).flatMap lineCmd) s = .next t ∧
      t.status = 0 ∧ t.type = type ∧ t.len.toNat = payload.length ∧ t.mem.readBytes t.pay.toNat t.len.toNat = payload ∧
      t.mem = s.mem ∧ t.lim = s.lim ∧ t.src.toNat = s.src.toNat + (recordsBytes (recs.take (n + 1))).length := by
  induction recs generalizing s n with
  | nil => cases listed
  | cons r recs ih =>
    obtain ⟨t, run, delivered, rest⟩ := exec_des_of_holdsRecords (s := s.inRun) legal holds.inRun
    cases n with
    | zero =>
      cases listed
      refine ⟨t, (hostRun_lineCmd .des s).trans run, delivered.status, delivered.type, delivered.len, delivered.bytes,
        delivered.mem, delivered.lim, ?_⟩
      rw [delivered.src, List.take_succ_cons, length_recordsBytes_cons]
      rfl
    | succ n =>
      obtain ⟨u, runTail, status, type, len, bytes, mem, lim, src⟩ := ih (delivered.params ▸ legal) rest listed
      refine ⟨u, (hostRun_lineCmd_append run _).trans runTail, status, type, len, bytes, mem.trans delivered.mem,
        lim.trans delivered.lim, ?_⟩
      rw [src, delivered.src, List.take_succ_cons, length_recordsBytes_cons, Nat.add_assoc]
      rfl

end Sys2Proof.Machine
end

section
/-! PROOFS. The obligations about sequences of records (42_serialize.md section 3, 43_deserialize.md section 3). -/

namespace Sys2Proof.Machine

/-- Settles O29: by induction on the jobs; each SER writes its record at DST and touches no payload that is still to come. -/
theorem serSequenceConcatenatesRecords : Obligations.SerSequenceConcatenatesRecords := by
  rintro s jobs _ legal limInBuf rfl room fit
  exact hostRun_jobs legal limInBuf room fit

/-- Settles O30: by induction on the number of DES; each delivers the record at SRC and leaves the others before LIM. SRC meets
LIM when no record is left, since no record is empty. -/
theorem walkDeliversRecordsInOrder : Obligations.WalkDeliversRecordsInOrder := by
  intro s recs n type payload legal limInBuf letters ends bytes listed
  have ends' : s.lim.toNat - s.src.toNat = (recordsBytes recs).length := Nat.sub_eq_of_eq_add' ends.symm
  have holds : HoldsRecords s recs := ⟨letters, limInBuf, ends, ends' ▸ bytes⟩
  obtain ⟨t, run, status, type, len, payloadBytes, mem, lim, src⟩ := hostRun_walk legal holds listed
  refine ⟨t, run, status, type, len, payloadBytes, mem, lim, src, ?_⟩
  obtain ⟨inList, -⟩ := List.getElem?_eq_some_iff.mp listed
  calc n + 1 = recs.length ↔ recs.length ≤ n + 1 := by omega
    _ ↔ (recordsBytes (recs.take (n + 1))).length = (recordsBytes recs).length :=
        (length_recordsBytes_take_eq_iff recs (n + 1)).symm
    _ ↔ t.src.toNat = t.lim.toNat := by rw [src, lim, ← holds.ends, Nat.add_left_cancel_iff]
    _ ↔ t.src = t.lim := BitVec.toNat_inj

end Sys2Proof.Machine
end
